-- ==== Sys2Proof/Word.lean ====
section
/-! DEFINITION. The widths of PBCORE's values (00_scope.md R8, R12): bytes, ROM entries and registers,
command and response words. Every value is unsigned and bit 0 is the least significant bit. -/

namespace Sys2Proof

/-- An 8-bit value: the accumulator, a byte operand, a ROM index, one character code (R8: `CRCW`, `IDXW`). -/
abbrev Byte := BitVec 8

/-- A 32-bit value: a ROM entry, an operand field, a response's data, POS, ERRWORD, ERRPOS (R8: `WORDW`, `POSW`). -/
abbrev Word := BitVec 32

/-- A 40-bit word of the command or the response channel (R80, R8: `CMDW`, `RSPW`). -/
abbrev Word40 := BitVec 40

end Sys2Proof
end

