-- ==== Sys2Proof/Config.lean ====
section
/-! DEFINITION. What is fixed for one PBCORE and what its builder or its host supplies (00_scope.md R8 to R11):
the CRC constants, the word table (an open parameter, held well formed by its type), the host's text parameters. -/

namespace Sys2Proof

namespace Config

/-- `POLY`, the CRC polynomial (R8, R9, R30): hardwired, written by no command. -/
def poly : Byte := 0x07#8

/-- `CRC_INIT`, the accumulator at the start of a checksum (R8). -/
def crcInit : Byte := 0x00#8

/-- `DELIM`, the delimiter of the host's text format (R8, R174). -/
def delim : Char := '-'

end Config

/-- A character code of a lowercase ASCII letter, `a = 0x61` to `z = 0x7A` (R10 (c), R54). -/
def lowercaseCode (c : Byte) : Bool := decide (0x61 ≤ c.toNat) && decide (c.toNat ≤ 0x7A)

/-- A 32-bit entry whose four bytes are lowercase ASCII letters (R10 (c), R53). -/
def lowercaseEntry (w : Word) : Bool :=
  lowercaseCode (w.extractLsb' 24 8) && lowercaseCode (w.extractLsb' 16 8) &&
    lowercaseCode (w.extractLsb' 8 8) && lowercaseCode (w.extractLsb' 0 8)

/-- Well-formedness of a word table (R10): (a) 256 entries, (b) no two equal, (c) each four lowercase letters. -/
def TableWellFormed (entries : List Word) : Prop :=
  entries.length = 256 ∧ entries.Nodup ∧ entries.all lowercaseEntry = true

/-- Entry `i` of the spec's synthetic table T_SYN (95_test_vectors.md section 2, 92_eei_decisions.md D31). -/
def synEntry (i : Nat) : Word :=
  let x := BitVec.ofNat 8 (0x61 + i / 16)
  let y := BitVec.ofNat 8 (0x61 + i % 16)
  x ++ y ++ x ++ y

/-- The entries of T_SYN, which serve here only to show that well-formed tables exist. -/
def synEntries : List Word := (List.range 256).map synEntry

/-- The index read back from the first two letters of a T_SYN entry. -/
def synIndex (w : Word) : Nat :=
  ((w.extractLsb' 24 8).toNat - 0x61) * 16 + ((w.extractLsb' 16 8).toNat - 0x61)

theorem synIndex_synEntry : (List.range 256).all (fun i => synIndex (synEntry i) == i) = true := by
  decide +kernel

theorem synEntries_lowercase : synEntries.all lowercaseEntry = true := by decide +kernel

theorem synEntries_wellFormed : TableWellFormed synEntries := by
  refine ⟨by simp [synEntries], ?_, synEntries_lowercase⟩
  refine List.Nodup.map_on ?_ List.nodup_range
  intro x hx y hy hxy
  have h := List.all_eq_true.1 synIndex_synEntry
  rw [← beq_iff_eq.1 (h x hx), hxy, beq_iff_eq.1 (h y hy)]

/-- `WORDTABLE` (R8, R10, R31): the contents of the ROM, with the checked premise that they are well formed.
A table that fails R10 is no value of this type, so the model gives it no step (93 U1, U2: refuse).
The default values of the fields only show the type inhabited, which an opaque constant needs. -/
structure WordTable where
  /-- entry `i` at index `i` -/
  entries : List Word := synEntries
  /-- R10 -/
  wellFormed : TableWellFormed entries := by exact synEntries_wellFormed
  deriving DecidableEq, Repr, Inhabited

/-- The word table of this PBCORE: OPEN (R8, 92_eei_decisions.md D13). No proof can see an entry of it.
The reset state carries it; every statement about a state holds for every table (assumption 1). -/
opaque Config.wordTable : WordTable

/-- R8's assumption on `HOST_WS`: neither a lowercase letter nor `-`. -/
def wsAllowed (ws : List Char) : Bool :=
  ws.all fun c => !(decide (0x61 ≤ c.toNat) && decide (c.toNat ≤ 0x7A)) && c != Config.delim

/-- The open parameters of the host software (R8, R181, 92_eei_decisions.md D29); neither reaches the block. -/
structure HostParams where
  /-- `HOST_WS`: the characters that count as whitespace when trimming -/
  ws : List Char
  /-- R8 -/
  wsOk : wsAllowed ws = true
  /-- `HOST_SPLIT_TRIMMED`: `decode` splits the trimmed text -/
  splitTrimmed : Bool
  deriving DecidableEq, Repr

end Sys2Proof
end

