-- ==== Sys2Proof/Machine/State.lean ====
section
/-! DEFINITION. PBCORE's state as plain data (10_state.md R20 to R36), its responses (30_encoding.md R88, R89), the
host's moves on the command channel and the reset line (00_scope.md R6, R7), and the reset state (R35, R230). -/

namespace Sys2Proof.Machine

/-- The status of a response (R89). One enumeration serves the block and the host. -/
inductive Status where
  /-- success -/
  | ok
  /-- EmptyInputError; host only (R205) -/
  | emptyInput
  /-- TooShortError; host only (R206) -/
  | tooShort
  /-- a W2B miss, or a token the host finds is not four characters (R202, R177) -/
  | invalidWord
  /-- CRCCHK with `ACC ≠ 0` (R203) -/
  | crcMismatch
  /-- an illegal command word (R204) -/
  | illegalCmd
  deriving DecidableEq, Repr

/-- A response `{st, data}` (R88). -/
structure Response where
  /-- bits 39:32 -/
  status : Status
  /-- bits 31:0 -/
  data : Word
  deriving DecidableEq, Repr

/-- A move of the host that reaches the block (R6, R7, R170, R232). -/
inductive HostMove where
  /-- present this word on the command channel -/
  | command (c : Word40)
  /-- assert reset between two commands (R232) -/
  | reset
  deriving DecidableEq, Repr

/-- The machine: the six registers of R20, the ROM contents a block is built with (R31, constant), and the two
channels at transaction level (R7, R189). There is no program counter (R24) and no writable memory (R50). -/
structure State where
  /-- ACC, the CRC accumulator (R21) -/
  acc : Byte
  /-- POS, the W2B commands since the last W2BINIT or reset, modulo `2^32` (R22) -/
  pos : Word
  /-- IW, the invalid-word flag (R25) -/
  iw : Bool
  /-- IC, the illegal-command flag (R26) -/
  ic : Bool
  /-- ERRWORD, the operand of the first miss (R23) -/
  errWord : Word
  /-- ERRPOS, the position of the first miss (R23) -/
  errPos : Word
  /-- ROM: the block's `WORDTABLE`; configuration that no move changes (R31, R51, R231; assumption 1) -/
  rom : WordTable
  /-- what the host presents, next first: the command channel and the reset line (R24, R60, R232) -/
  moves : List HostMove
  /-- the responses given, oldest first: the response channel (R61, R189) -/
  responses : List Response
  deriving DecidableEq, Repr

/-- Reasons for the machine to stop in the midst of a run. There are none: a PBCORE fault is a response and the block
goes on (R200, R209), every command word has a defined outcome in every state (R211), and a block with no command
waits (R233). So no step raises one, and the type has no constructor; safe, since no behaviour is cut off. -/
inductive Fault where
  deriving DecidableEq, Repr

/-- Reasons for the model to give an instruction no meaning. -/
inductive Refusal where
  /-- raised by an arm of `exec` whose instruction has no meaning yet, naming its mnemonic; safe. No arm does. -/
  | notModelled (mnemonic : String)
  deriving DecidableEq, Repr

/-- The outcome of a step of this machine. -/
abbrev Outcome := Host.Outcome State Fault Refusal

/-- R35, R230: every register at the reset value the spec gives; the ROM holds `WORDTABLE`; nothing presented yet
and nothing answered yet (R233). -/
def State.reset : State where
  acc := 0x00#8
  pos := 0x00000000#32
  iw := false
  ic := false
  errWord := 0x00000000#32
  errPos := 0x00000000#32
  rom := Config.wordTable
  moves := []
  responses := []

end Sys2Proof.Machine
end

