-- ==== Sys2Proof/Machine/Flags.lean ====
section
/-! DEFINITION. The two flags and the record they guard: the first-miss latch (IW, ERRWORD, ERRPOS), the sticky IC,
and the STATUS view (10_state.md R23, R25 to R29). PBCORE has no carry, zero, sign or overflow flag (R27). -/

namespace Sys2Proof.Machine

/-- A miss of operand `w` at position `p`: latched only while IW is 0 (R23, R25, R143). -/
def State.latchMiss (w p : Word) (s : State) : State :=
  { s with
    iw := true
    errWord := if s.iw then s.errWord else w
    errPos := if s.iw then s.errPos else p }

/-- W2BINIT's clearing of the record (R25, R145). -/
def State.clearMiss (s : State) : State :=
  { s with iw := false, errWord := 0#32, errPos := 0#32 }

/-- An illegal word leaves its mark; only reset clears it (R26). -/
def State.setIC (s : State) : State := { s with ic := true }

/-- STATUS: bit 0 is IW, bit 1 is IC, bits 31:2 are 0 (R28, R29). -/
def State.statusView (s : State) : Word :=
  0#30 ++ BitVec.ofBool s.ic ++ BitVec.ofBool s.iw

end Sys2Proof.Machine
end

