-- ==== Sys2Proof/Syntax.lean ====
section
/-! DEFINITION. PBCORE's instruction set, which is its command set (30_encoding.md R84): seven commands. -/

namespace Sys2Proof

/-- One command with its operand (R84, R85). The two RDREG rows of spec/opcode_table.json are one command: R91
splits it only because `r ≤ 5` is no single match and mask (assumption 12). -/
inductive Instr where
  /-- CRCINIT: start a checksum (R120) -/
  | crcinit
  /-- CRCBYTE b: process one input byte (R121) -/
  | crcbyte (b : Byte)
  /-- CRCCHK: verify the zero residue (R122) -/
  | crcchk
  /-- B2W b: the word of a byte (R140) -/
  | b2w (b : Byte)
  /-- W2B w: the byte of a word (R143) -/
  | w2b (w : Word)
  /-- W2BINIT: start a word sequence (R145) -/
  | w2binit
  /-- RDREG r: read a register by number (R160) -/
  | rdreg (r : Byte)
  deriving DecidableEq, Repr

end Sys2Proof
end

