-- ==== Sys2Proof/WellFormed.lean ====
section
/-! DEFINITION. Which instructions spell a legal command word: the one check the syntax leaves open is RDREG's
register number (30_encoding.md R83, R86). -/

namespace Sys2Proof

/-- R83, R86: every operand of CRCBYTE, B2W and W2B is legal; a register number is 0 to 5. -/
def Instr.WellFormed : Instr → Bool
  | .crcinit => true
  | .crcbyte _ => true
  | .crcchk => true
  | .b2w _ => true
  | .w2b _ => true
  | .w2binit => true
  | .rdreg r => decide (r.toNat ≤ 5)

end Sys2Proof
end

