-- ==== Sys2Proof/Decode.lean ====
section
/-! DEFINITION. The decoder of command words, total and rejecting by name (30_encoding.md R82 to R87, R91), the rows
of the opcode table (R91), the encoder (R84), and command words as bytes (R95). -/

namespace Sys2Proof

/-- Why a command word spells no command (R86). -/
inductive DecodeError where
  /-- `op` is in no row of R84 -/
  | reservedOpcode (op : Byte)
  /-- format N with `arg` not zero, or format B or R with `arg[31:8]` not zero -/
  | operandNotZero (op : Byte)
  /-- RDREG of a register number 6 to 255 -/
  | noSuchRegister (r : Byte)
  /-- a byte form that is not five bytes (R95) -/
  | notFiveBytes
  deriving DecidableEq, Repr

/-- `{op, arg}` (R82). -/
def word40 (op : Byte) (arg : Word) : Word40 := op ++ arg

/-- `cmd[39:32]` (R82). -/
def opField (c : Word40) : Byte := c.extractLsb' 32 8

/-- `cmd[31:0]` (R82). -/
def argField (c : Word40) : Word := c.extractLsb' 0 32

/-- Format N (R83): the operand field must be zero. -/
def formatN (op : Byte) (arg : Word) (i : Instr) : Except DecodeError Instr :=
  if arg = 0#32 then .ok i else .error (.operandNotZero op)

/-- Formats B and R (R83): `arg[31:8]` must be zero; the operand is `arg[7:0]` (R85). -/
def formatB (op : Byte) (arg : Word) (k : Byte → Except DecodeError Instr) : Except DecodeError Instr :=
  if arg.extractLsb' 8 24 = 0#24 then k (arg.extractLsb' 0 8) else .error (.operandNotZero op)

/-- The register number of format R must be 0 to 5 (R83). -/
def registerOperand (r : Byte) : Except DecodeError Instr :=
  if r.toNat ≤ 5 then .ok (.rdreg r) else .error (.noSuchRegister r)

/-- R91: read `op`, take the format of its row in R84, apply the condition of R86, take the operand (R85). -/
def decode (c : Word40) : Except DecodeError Instr :=
  let op := opField c
  let arg := argField c
  if op = 0x01#8 then formatN op arg .crcinit
  else if op = 0x02#8 then formatB op arg (fun b => .ok (.crcbyte b))
  else if op = 0x03#8 then formatN op arg .crcchk
  else if op = 0x10#8 then formatB op arg (fun b => .ok (.b2w b))
  else if op = 0x11#8 then .ok (.w2b arg)
  else if op = 0x12#8 then formatN op arg .w2binit
  else if op = 0x20#8 then formatB op arg registerOperand
  else .error (.reservedOpcode op)

/-- The decoder's answer with the reason for a rejection left out. -/
def decode? (c : Word40) : Option Instr :=
  match decode c with
  | .ok i => some i
  | .error _ => none

/-- R86: the word spells a command. -/
def legal (c : Word40) : Bool := (decode? c).isSome

/-- The command word of an instruction (R84, R85). -/
def encode : Instr → Word40
  | .crcinit => word40 0x01#8 0#32
  | .crcbyte b => word40 0x02#8 (b.setWidth 32)
  | .crcchk => word40 0x03#8 0#32
  | .b2w b => word40 0x10#8 (b.setWidth 32)
  | .w2b w => word40 0x11#8 w
  | .w2binit => word40 0x12#8 0#32
  | .rdreg r => word40 0x20#8 (r.setWidth 32)

/-- One row of the opcode table: a word `c` matches when `c & mask = pattern` (R91). -/
structure Row where
  /-- the mnemonic, as the table spells it -/
  mnemonic : String
  /-- the table's `match` -/
  pattern : Word40
  /-- the table's `mask` -/
  mask : Word40
  deriving DecidableEq, Repr

/-- R91's test of a row. -/
def rowMatches (row : Row) (c : Word40) : Bool := c &&& row.mask == row.pattern

/-- The eight rows of R91. -/
def opcodeRows : List Row :=
  [⟨"CRCINIT", 0x0100000000#40, 0xFFFFFFFFFF#40⟩,
   ⟨"CRCBYTE", 0x0200000000#40, 0xFFFFFFFF00#40⟩,
   ⟨"CRCCHK", 0x0300000000#40, 0xFFFFFFFFFF#40⟩,
   ⟨"B2W", 0x1000000000#40, 0xFFFFFFFF00#40⟩,
   ⟨"W2B", 0x1100000000#40, 0xFF00000000#40⟩,
   ⟨"W2BINIT", 0x1200000000#40, 0xFFFFFFFFFF#40⟩,
   ⟨"RDREG", 0x2000000000#40, 0xFFFFFFFFFC#40⟩,
   ⟨"RDREG", 0x2000000004#40, 0xFFFFFFFFFE#40⟩]

/-- The mnemonic of an instruction (R84). -/
def mnemonic : Instr → String
  | .crcinit => "CRCINIT"
  | .crcbyte _ => "CRCBYTE"
  | .crcchk => "CRCCHK"
  | .b2w _ => "B2W"
  | .w2b _ => "W2B"
  | .w2binit => "W2BINIT"
  | .rdreg _ => "RDREG"

/-- A command or response word as five bytes, most significant first (R95). -/
def wordBytes (c : Word40) : List Byte :=
  [c.extractLsb' 32 8, c.extractLsb' 24 8, c.extractLsb' 16 8, c.extractLsb' 8 8, c.extractLsb' 0 8]

/-- The 40-bit word of five bytes, most significant first (R95). -/
def wordOfBytes : List Byte → Option Word40
  | [b0, b1, b2, b3, b4] => some (b0 ++ b1 ++ b2 ++ b3 ++ b4)
  | _ => none

/-- The decoder on the byte form of R95: total on any bytes. -/
def decodeBytes (bs : List Byte) : Except DecodeError Instr :=
  match wordOfBytes bs with
  | some c => decode c
  | none => .error .notFiveBytes

/-- The command word whose bits, numbered as spec/opcode_table.json numbers them, are `w`; bits from `nbits` up are 0.
A PBCORE command is one 40-bit word, parallel on its channel, so the table's numbering is the word's own (R80, R95). -/
def tableWord (nbits w : Nat) : Word40 := BitVec.ofNat 40 (w % 2 ^ nbits)

/-- What the decoder reads from that word. -/
def decodeTableWord (nbits w : Nat) : Option Instr := decode? (tableWord nbits w)

end Sys2Proof
end

