-- ==== Sys2Proof/Machine/Operands.lean ====
section
/-! DEFINITION. Operand forms: zero extension (00_scope.md R13), the packing of four characters (20_memory.md R53),
register numbers (10_state.md R28), status codes and response words (30_encoding.md R88, R89, R95). -/

namespace Sys2Proof.Machine

/-- `zext_32` (R13). -/
def zext32 (b : Byte) : Word := b.setWidth 32

/-- `{code(c0), code(c1), code(c2), code(c3)}`, the first character in bits 31:24 (R53). -/
def packWord (c0 c1 c2 c3 : Byte) : Word := c0 ++ c1 ++ c2 ++ c3

/-- The four character codes of a word, in reading order (R53). -/
def wordCodes (w : Word) : List Byte :=
  [w.extractLsb' 24 8, w.extractLsb' 16 8, w.extractLsb' 8 8, w.extractLsb' 0 8]

/-- The registers and views RDREG reads (R28). -/
inductive Reg where
  | status
  | acc
  | pos
  | errWord
  | errPos
  | poly
  deriving DecidableEq, Repr

/-- The register with a number; 6 to 255 name none (R28). -/
def regOfNumber (r : Byte) : Option Reg :=
  match r.toNat with
  | 0 => some .status
  | 1 => some .acc
  | 2 => some .pos
  | 3 => some .errWord
  | 4 => some .errPos
  | 5 => some .poly
  | _ => none

/-- The number of a register (R28). -/
def regNumber : Reg → Byte
  | .status => 0#8
  | .acc => 1#8
  | .pos => 2#8
  | .errWord => 3#8
  | .errPos => 4#8
  | .poly => 5#8

/-- The status codes (R89). -/
def statusCode : Status → Byte
  | .ok => 0x00#8
  | .emptyInput => 0x01#8
  | .tooShort => 0x02#8
  | .invalidWord => 0x03#8
  | .crcMismatch => 0x04#8
  | .illegalCmd => 0x05#8

/-- The 40-bit response word `{st, data}` (R88). -/
def responseWord (r : Response) : Word40 := statusCode r.status ++ r.data

/-- A response as five bytes, most significant first (R95). -/
def responseBytes (r : Response) : List Byte := wordBytes (responseWord r)

end Sys2Proof.Machine
end

