-- ==== Sys2Proof/Machine/Ops.lean ====
section
/-! DEFINITION. The named operations of the machine: reading the ROM and its reverse lookup (20_memory.md R50 to R57),
reading a register (10_state.md R28), responding (00_scope.md R14, 30_encoding.md R88), raising a fault
(60_exceptions.md R200 to R204), reset (70_reset_and_hazards.md R230). -/

namespace Sys2Proof.Machine

/-- `ROM[i]`, one whole entry at an 8-bit index (R50, R51); every index is populated (R52). -/
def romRead (t : WordTable) (i : Byte) : Word := t.entries.getD i.toNat 0#32

/-- `rev(w)`: the index of the entry equal to `w` in all 32 bits, if there is one (R56). At most one index
qualifies in a well-formed table, so the order of the search is not observable. -/
def rev (t : WordTable) (w : Word) : Option Byte := (t.entries.idxOf? w).map (BitVec.ofNat 8)

/-- The 32-bit value RDREG returns for a register (R28, R160). -/
def State.readReg (g : Reg) (s : State) : Word :=
  match g with
  | .status => s.statusView
  | .acc => zext32 s.acc
  | .pos => s.pos
  | .errWord => s.errWord
  | .errPos => s.errPos
  | .poly => zext32 Config.poly

/-- `respond(st, d)`: the step's one response (R14, R61). -/
def State.respond (st : Status) (d : Word) (s : State) : State :=
  { s with responses := s.responses ++ [⟨st, d⟩] }

/-- The faults a command can raise, with what each reports (R200). -/
inductive Cause where
  /-- W2B of a word `w` that is no entry, at position `p` (R202) -/
  | invalidWord (w p : Word)
  /-- CRCCHK with this nonzero residue (R203) -/
  | crcMismatch (residue : Byte)
  /-- an illegal command word with this opcode byte (R204) -/
  | illegalCmd (op : Byte)
  deriving DecidableEq, Repr

/-- `raise <Fault>(info)` (R14): the fault's status code and data in the response, and only the state changes its
rule lists (R202 to R204; POS's own advance is W2B's). No state is saved, no mode changes and control goes nowhere;
the next command executes as ever, so there is no return from a fault either (R209, R210). -/
def State.raise (c : Cause) (s : State) : State :=
  match c with
  | .invalidWord w p => (s.latchMiss w p).respond .invalidWord p
  | .crcMismatch a => s.respond .crcMismatch (zext32 a)
  | .illegalCmd op => s.setIC.respond .illegalCmd (zext32 op)

/-- Reset's whole effect: the six registers take their reset values (R35, R230). The ROM and POLY stay (R231), and
what the channels carried before the reset is not the registers' (assumption 4). -/
def State.resetRegisters (s : State) : State :=
  { s with acc := 0#8, pos := 0#32, iw := false, ic := false, errWord := 0#32, errPos := 0#32 }

end Sys2Proof.Machine
end

