-- ==== Sys2Proof/Machine/Crc.lean ====
section
/-! DEFINITION. The CRC unit (40_crc.md): the functions `crc_bit`, `crc_byte`, `crc` (R111 to R113) and the commands
CRCINIT, CRCBYTE, CRCCHK (R120 to R122). -/

namespace Sys2Proof.Machine

/-- One iteration, for any polynomial (R111, 93 U3): shift left by one, and XOR the polynomial in exactly when bit 7
was 1 before the shift. -/
def crcBitOver (poly a : Byte) : Byte :=
  if a.getLsbD 7 then (a <<< 1) ^^^ poly else a <<< 1

/-- One input byte, for any polynomial (R112): XOR it in whole, then iterate exactly eight times. -/
def crcByteOver (poly a b : Byte) : Byte := (crcBitOver poly)^[8] (a ^^^ b)

/-- A byte sequence, for any polynomial (R113): from `CRC_INIT`, first byte first, nothing XORed in at the end. -/
def crcOver (poly : Byte) (bs : List Byte) : Byte := bs.foldl (crcByteOver poly) Config.crcInit

/-- `crc_bit` (R111). -/
def crcBit (a : Byte) : Byte := crcBitOver Config.poly a

/-- `crc_byte` (R112). -/
def crcByte (a b : Byte) : Byte := crcByteOver Config.poly a b

/-- `crc` (R113), the source's `calculate_checksum(s, 0x07)`. -/
def crc (bs : List Byte) : Byte := crcOver Config.poly bs

/-- CRCINIT (R120): `ACC <- 0x00`; OK. -/
def execCrcinit (s : State) : Outcome :=
  .next (State.respond .ok 0#32 { s with acc := Config.crcInit })

/-- CRCBYTE b (R121): `ACC <- crc_byte(ACC, b)`, all eight iterations in the one step; OK. -/
def execCrcbyte (b : Byte) (s : State) : Outcome :=
  .next (State.respond .ok 0#32 { s with acc := crcByte s.acc b })

/-- CRCCHK (R122): OK when ACC is zero, else CRC_MISMATCH with the residue; ACC keeps its value. -/
def execCrcchk (s : State) : Outcome :=
  .next (if s.acc = 0#8 then s.respond .ok 0#32 else s.raise (.crcMismatch s.acc))

end Sys2Proof.Machine
end

