-- ==== Sys2Proof/Machine/Lookup.lean ====
section
/-! DEFINITION. The lookup engines (41_lookup.md): B2W (R140), W2B (R143), W2BINIT (R145). -/

namespace Sys2Proof.Machine

/-- B2W b (R140): the entry at index `b`; writes no register. -/
def execB2w (b : Byte) (s : State) : Outcome :=
  .next (s.respond .ok (romRead s.rom b))

/-- W2B w (R143): POS advances whichever way the lookup goes; a hit answers the index, a miss raises INVALID_WORD
with POS as it was before the step. -/
def execW2b (w : Word) (s : State) : Outcome :=
  .next
    (match rev s.rom w with
     | some i => State.respond .ok (zext32 i) { s with pos := s.pos + 1#32 }
     | none => State.raise (.invalidWord w s.pos) { s with pos := s.pos + 1#32 })

/-- W2BINIT (R145): POS, IW, ERRWORD and ERRPOS to zero; OK. -/
def execW2binit (s : State) : Outcome :=
  .next (State.respond .ok 0#32 { s.clearMiss with pos := 0#32 })

end Sys2Proof.Machine
end

