-- ==== Sys2Proof/Machine/System.lean ====
section
/-! DEFINITION. The register read RDREG (42_system.md R160). The system commands R162 lists do not exist. -/

namespace Sys2Proof.Machine

/-- RDREG r (R160): the register zero-extended; no state changes. A number 6 to 255 spells an illegal command (R28,
R86), so such a term takes ILLEGAL_CMD as its word does (R204; assumption 6). -/
def execRdreg (r : Byte) (s : State) : Outcome :=
  .next
    (match regOfNumber r with
     | some g => s.respond .ok (s.readReg g)
     | none => s.raise (.illegalCmd 0x20#8))

end Sys2Proof.Machine
end

