-- ==== Sys2Proof/Machine/Dispatch.lean ====
section
/-! DEFINITION. One arm per command: which meaning an instruction has. -/

namespace Sys2Proof.Machine

def exec (i : Instr) (s : State) : Host.Outcome State Fault Refusal :=
  match i with
  | .crcinit => Sys2Proof.Machine.execCrcinit s
  | .crcbyte b => Sys2Proof.Machine.execCrcbyte b s
  | .crcchk => Sys2Proof.Machine.execCrcchk s
  | .b2w b => Sys2Proof.Machine.execB2w b s
  | .w2b w => Sys2Proof.Machine.execW2b w s
  | .w2binit => Sys2Proof.Machine.execW2binit s
  | .rdreg r => Sys2Proof.Machine.execRdreg r s

end Sys2Proof.Machine
end

