-- ==== Sys2Proof/Machine/Fetch.lean ====
section
/-! DEFINITION. What the block does with a move of the host (00_scope.md R5, R6; 70_reset_and_hazards.md R232): a
command word is decoded and executed or refused as ILLEGAL_CMD (30_encoding.md R86, R91); a reset resets. Commands
are presented on a channel, not fetched from a memory (10_state.md R24, 20_memory.md R64). -/

namespace Sys2Proof.Machine

/-- One command word (R86, R91): legality is decided from the word alone, before anything else (R207). -/
def executeWord (c : Word40) (s : State) : Outcome :=
  match decode c with
  | .ok i => exec i s
  | .error _ => .next (s.raise (.illegalCmd (opField c)))

/-- One move of the host. -/
def perform (m : HostMove) (s : State) : Outcome :=
  match m with
  | .command c => executeWord c s
  | .reset => .next s.resetRegisters

/-- One step of the block: the next move on the channel, in arrival order (R60). With nothing presented the block
waits, and idleness loses no state (R216, R233; assumption 5). -/
def serve (s : State) : Outcome :=
  match s.moves with
  | [] => .next s
  | m :: ms => perform m { s with moves := ms }

/-- A finite list of moves, one after another (R60, R189): what the host presents and the block does in turn. -/
def performAll : List HostMove → State → Outcome
  | [], s => .next s
  | m :: ms, s =>
    match perform m s with
    | .next t => performAll ms t
    | .fault r => .fault r
    | .refused r => .refused r

/-- A program in the sense of R24 and R189: a finite list of command words. -/
def runCommands (cs : List Word40) (s : State) : Outcome := performAll (cs.map .command) s

end Sys2Proof.Machine
end

