-- ==== Sys2Proof/Machine/Step.lean ====
section
/-! DEFINITION. The step of the machine, and where its next command word stands. -/

namespace Sys2Proof.Machine

/-- One step (R5, R60). -/
def step (s : State) : Host.Outcome State Fault Refusal := serve s

/-- The word presented next on the command channel, ahead of what the host had queued (assumption 3). -/
def State.withFetchWord (s : State) (nbits w : Nat) : State :=
  { s with moves := .command (tableWord nbits w) :: s.moves }

end Sys2Proof.Machine
end

