-- ==== Sys2Proof/Machine/HostSequences.lean ====
section
/-! DEFINITION. The host's four operations as command sequences (43_host_sequences.md R170 to R189): bytes_to_words,
words_to_bytes, encode, decode, with the text format and the failures only the host raises. The host's variables are
no state of the block (10_state.md R37); a sequence reaches the block through `executeWord` alone. -/

namespace Sys2Proof.Machine

/-- A text of the host, character by character. -/
abbrev Text := List Char

/-! ### One command and its response -/

/-- Send a command word and take its one response (R171 (a)). `none` would be a block that stopped or did not
answer; R211 says there is no such block. -/
def send (c : Word40) (s : State) : Option (Response × State) :=
  match executeWord c s with
  | .next t => t.responses.getLast?.map fun r => (r, t)
  | .fault _ => none
  | .refused _ => none

/-- Send an instruction's command word. -/
def request (i : Instr) (s : State) : Option (Response × State) := send (encode i) s

/-- Send an instruction that answers OK, and take its data; any other status would fail the operation (R171 (d)). -/
def requestOk (i : Instr) (s : State) : Option (Word × State) :=
  match request i s with
  | some (r, t) => if r.status = .ok then some (r.data, t) else none
  | none => none

/-- The byte of a response: `data[7:0]` (R176, R178). -/
def dataByte (d : Word) : Byte := d.extractLsb' 0 8

/-- `CRCBYTE b0, ..., CRCBYTE bn-1` in order. -/
def feedCrc : List Byte → State → Option State
  | [], s => some s
  | b :: bs, s =>
    match requestOk (.crcbyte b) s with
    | some (_, t) => feedCrc bs t
    | none => none

/-! ### bytes_to_words and words_to_bytes -/

/-- R175: one B2W a byte; the data of the responses, in order. -/
def bytesToWords : List Byte → State → Option (List Word × State)
  | [], s => some ([], s)
  | b :: bs, s =>
    match requestOk (.b2w b) s with
    | some (w, t) => (bytesToWords bs t).map fun (ws, u) => (w :: ws, u)
    | none => none

/-- `InvalidWordError(word, position)` of words_to_bytes (R176, R188). -/
structure InvalidWordError where
  /-- the first word that is no entry -/
  word : Word
  /-- its position, as the block's response gives it -/
  position : Nat
  deriving DecidableEq, Repr

/-- The loop of R176: one W2B a word, up to the first miss, which discards the bytes collected. -/
def convertWords : List Word → State → Option (Except InvalidWordError (List Byte) × State)
  | [], s => some (.ok [], s)
  | w :: ws, s =>
    match request (.w2b w) s with
    | none => none
    | some (r, t) =>
      if r.status = .invalidWord then some (.error ⟨w, r.data.toNat⟩, t)
      else (convertWords ws t).map fun (res, u) => (res.map fun bs => dataByte r.data :: bs, u)

/-- R176: W2BINIT, then the loop. -/
def wordsToBytes (ws : List Word) (s : State) : Option (Except InvalidWordError (List Byte) × State) :=
  match requestOk .w2binit s with
  | some (_, t) => convertWords ws t
  | none => none

/-! ### The text format -/

/-- The code of an 8-bit character (R53, R177; assumption 9). -/
def charCode (c : Char) : Option Byte := if c.toNat < 256 then some (BitVec.ofNat 8 c.toNat) else none

/-- `pack`: a token of exactly four 8-bit characters as a W2B operand (R53, R177, R179). -/
def packToken : Text → Option Word
  | [a, b, c, d] =>
    match charCode a, charCode b, charCode c, charCode d with
    | some a, some b, some c, some d => some (packWord a b c d)
    | _, _, _, _ => none
  | _ => none

/-- The four characters of a word, most significant byte first (R174). -/
def wordText (w : Word) : Text := (wordCodes w).map fun c => Char.ofNat c.toNat

/-- Words joined by the delimiter (R174, R178 step 4). -/
def joinWords (ws : List Word) : Text := List.intercalate [Config.delim] (ws.map wordText)

/-- Trimming of surrounding whitespace, for a set of whitespace characters (R181). -/
def trim (ws : List Char) (t : Text) : Text :=
  ((t.dropWhile fun c => ws.contains c).reverse.dropWhile fun c => ws.contains c).reverse

/-- R179 step 2, R181: the split keeps empty tokens; whether it sees the trimmed text is the host's parameter. -/
def splitTokens (hp : HostParams) (t : Text) : List Text :=
  (if hp.splitTrimmed then trim hp.ws t else t).splitOn Config.delim

/-- The failures of `decode` (R188). -/
inductive HostError where
  /-- EmptyInputError (R205) -/
  | emptyInput
  /-- TooShortError (R206) -/
  | tooShort
  /-- InvalidWordError, with the offending token and its zero-based position (R177, R202) -/
  | invalidWord (token : Text) (position : Nat)
  /-- CrcMismatchError (R203) -/
  | crcMismatch
  deriving DecidableEq, Repr

/-- The status code of a failure is that of its kind (R89, R188). -/
def hostErrorStatus : HostError → Status
  | .emptyInput => .emptyInput
  | .tooShort => .tooShort
  | .invalidWord _ _ => .invalidWord
  | .crcMismatch => .crcMismatch

/-! ### encode -/

/-- R178: the checksum, then the words of the payload and of the checksum byte. -/
def encodeWords (payload : List Byte) (s : State) : Option (List Word × State) :=
  match requestOk .crcinit s with
  | none => none
  | some (_, s1) =>
    match feedCrc payload s1 with
    | none => none
    | some s2 =>
      match requestOk (.rdreg (regNumber .acc)) s2 with
      | none => none
      | some (c, s3) => bytesToWords (payload ++ [dataByte c]) s3

/-- `encode(payload)` (R178). -/
def hostEncode (payload : List Byte) (s : State) : Option (Text × State) :=
  (encodeWords payload s).map fun (ws, t) => (joinWords ws, t)

/-- `CRCBYTE bk` with `B2W bk` next to it, for each `k` (R178). DESIGN CHOICE (assumption 16): CRCBYTE goes first;
safe, for the units are independent (R148). -/
def feedAndMap : List Byte → State → Option (List Word × State)
  | [], s => some ([], s)
  | b :: bs, s =>
    match requestOk (.crcbyte b) s with
    | none => none
    | some (_, t) =>
      match requestOk (.b2w b) t with
      | none => none
      | some (w, u) => (feedAndMap bs u).map fun (ws, v) => (w :: ws, v)

/-- `encode` with the interleaving R178 allows. -/
def hostEncodeInterleaved (payload : List Byte) (s : State) : Option (Text × State) :=
  match requestOk .crcinit s with
  | none => none
  | some (_, s1) =>
    match feedAndMap payload s1 with
    | none => none
    | some (ws, s2) =>
      match requestOk (.rdreg (regNumber .acc)) s2 with
      | none => none
      | some (c, s3) => (requestOk (.b2w (dataByte c)) s3).map fun (w, s4) => (joinWords (ws ++ [w]), s4)

/-! ### decode -/

/-- The loop of R179 step 4 from token number `k`: a token that is not four 8-bit characters is the host's own
InvalidWordError (R177), any other is a W2B operand. -/
def convertTokens : List Text → Nat → State → Option (Except HostError (List Byte) × State)
  | [], _, s => some (.ok [], s)
  | t :: ts, k, s =>
    match packToken t with
    | none => some (.error (.invalidWord t k), s)
    | some w =>
      match request (.w2b w) s with
      | none => none
      | some (r, s1) =>
        if r.status = .invalidWord then some (.error (.invalidWord t r.data.toNat), s1)
        else (convertTokens ts (k + 1) s1).map fun (res, s2) => (res.map fun bs => dataByte r.data :: bs, s2)

/-- R179 step 5: the checksum of the entire decoded sequence, checksum byte included, must leave the zero residue.
The answer is whether CRCCHK reported CRC_MISMATCH. -/
def verifyBytes (bs : List Byte) (s : State) : Option (Bool × State) :=
  match requestOk .crcinit s with
  | none => none
  | some (_, s1) =>
    match feedCrc bs s1 with
    | none => none
    | some s2 => (request .crcchk s2).map fun (r, s3) => (r.status == .crcMismatch, s3)

/-- `decode(text, verify_checksum)` (R179): steps 1 to 6 in order. -/
def hostDecode (hp : HostParams) (text : Text) (verify : Bool) (s : State) :
    Option (Except HostError (List Byte) × State) :=
  if trim hp.ws text = [] then some (.error .emptyInput, s)
  else if (splitTokens hp text).length < 2 then some (.error .tooShort, s)
  else
    match requestOk .w2binit s with
    | none => none
    | some (_, s1) =>
      match convertTokens (splitTokens hp text) 0 s1 with
      | none => none
      | some (.error e, s2) => some (.error e, s2)
      | some (.ok bs, s2) =>
        if verify then
          (verifyBytes bs s2).map fun (bad, s3) =>
            (if bad then .error .crcMismatch else .ok bs.dropLast, s3)
        else some (.ok bs.dropLast, s2)

/-- The loop of R179 step 4 with each hit's byte fed to the CRC unit at once (R180). DESIGN CHOICE (assumption 16): the
CRCBYTE goes before the next W2B; unsafe for claims about ACC after a failure. -/
def convertAndFeed : List Text → Nat → State → Option (Except HostError (List Byte) × State)
  | [], _, s => some (.ok [], s)
  | t :: ts, k, s =>
    match packToken t with
    | none => some (.error (.invalidWord t k), s)
    | some w =>
      match request (.w2b w) s with
      | none => none
      | some (r, s1) =>
        if r.status = .invalidWord then some (.error (.invalidWord t r.data.toNat), s1)
        else
          match requestOk (.crcbyte (dataByte r.data)) s1 with
          | none => none
          | some (_, s2) =>
            (convertAndFeed ts (k + 1) s2).map fun (res, s3) =>
              (res.map fun bs => dataByte r.data :: bs, s3)

/-- `decode` with verification, interleaved as R180 allows: CRCCHK only after every word has hit. DESIGN CHOICE
(assumption 16): R180 and D30 leave to the host where CRCINIT goes; here it follows W2BINIT, before the first token, so
ACC is cleared even when the first token is invalid. Unsafe for claims about ACC after a failure. -/
def hostDecodeInterleaved (hp : HostParams) (text : Text) (s : State) :
    Option (Except HostError (List Byte) × State) :=
  if trim hp.ws text = [] then some (.error .emptyInput, s)
  else if (splitTokens hp text).length < 2 then some (.error .tooShort, s)
  else
    match requestOk .w2binit s with
    | none => none
    | some (_, s1) =>
      match requestOk .crcinit s1 with
      | none => none
      | some (_, s2) =>
        match convertAndFeed (splitTokens hp text) 0 s2 with
        | none => none
        | some (.error e, s3) => some (.error e, s3)
        | some (.ok bs, s3) =>
          (request .crcchk s3).map fun (r, s4) =>
            (if r.status = .crcMismatch then .error .crcMismatch else .ok bs.dropLast, s4)

end Sys2Proof.Machine
end

