-- ==== Sys2Proof/Machine/Assembler.lean ====
section
/-! DEFINITION. The assembly language (30_encoding.md R93), its pseudo-instructions (R94) and the text form of a
40-bit word (R95). It is a notation for command words; the block never sees it. -/

namespace Sys2Proof.Machine

/-- Why the assembler refuses a line (R93). -/
inductive AsmError where
  /-- the line begins with no mnemonic, pseudo-instruction or directive -/
  | unknownMnemonic
  /-- an operand that is no number, quoted word or register name, or one too many or too few -/
  | badOperand
  /-- a number beyond what the operand holds -/
  | outOfRange
  deriving DecidableEq, Repr

/-- A source line of R93 or R94, its operands as written. -/
inductive Source where
  | crcinit
  | crcbyte (n : Nat)
  | crcchk
  | b2w (n : Nat)
  /-- W2B of a number -/
  | w2b (n : Nat)
  /-- W2B of a quoted word -/
  | w2bText (t : Text)
  | w2binit
  /-- RDREG of a register number -/
  | rdreg (n : Nat)
  /-- RDREG of a register name -/
  | rdregName (t : Text)
  /-- `.word`, any 40-bit number -/
  | word (n : Nat)
  | crcread
  | rdstat
  | crcbytes (ns : List Nat)
  | crcsum (ns : List Nat)
  deriving DecidableEq, Repr

/-- A number 0 to 255 (R93). -/
def byteOperand (n : Nat) : Except AsmError Byte :=
  if n < 2 ^ 8 then .ok (BitVec.ofNat 8 n) else .error .outOfRange

/-- A number 0 to `0xFFFFFFFF` (R93). -/
def wordOperand (n : Nat) : Except AsmError Word :=
  if n < 2 ^ 32 then .ok (BitVec.ofNat 32 n) else .error .outOfRange

/-- Exactly four ASCII characters, packed (R93, R53). -/
def quotedOperand (t : Text) : Except AsmError Word :=
  if t.all (fun c => decide (c.toNat < 128)) then
    match packToken t with
    | some w => .ok w
    | none => .error .badOperand
  else .error .badOperand

/-- A register number 0 to 5 (R93). -/
def registerNumberOperand (n : Nat) : Except AsmError Byte :=
  if n ≤ 5 then .ok (BitVec.ofNat 8 n) else .error .outOfRange

/-- The names of the registers (R93). -/
def regName : Reg → Text
  | .status => ['S', 'T', 'A', 'T', 'U', 'S']
  | .acc => ['A', 'C', 'C']
  | .pos => ['P', 'O', 'S']
  | .errWord => ['E', 'R', 'R', 'W', 'O', 'R', 'D']
  | .errPos => ['E', 'R', 'R', 'P', 'O', 'S']
  | .poly => ['P', 'O', 'L', 'Y']

/-- A register name (R93). -/
def registerNameOperand (t : Text) : Except AsmError Byte :=
  match [Reg.status, .acc, .pos, .errWord, .errPos, .poly].find? (fun g => regName g == t) with
  | some g => .ok (regNumber g)
  | none => .error .badOperand

/-- `CRCBYTES` (R94): one CRCBYTE a byte, in order; nothing for no bytes. -/
def assembleBytes : List Nat → Except AsmError (List Word40)
  | [] => .ok []
  | n :: ns =>
    match byteOperand n, assembleBytes ns with
    | .ok b, .ok cs => .ok (encode (.crcbyte b) :: cs)
    | .error e, _ => .error e
    | _, .error e => .error e

/-- The command words of a line (R93, R94). -/
def assemble : Source → Except AsmError (List Word40)
  | .crcinit => .ok [encode .crcinit]
  | .crcbyte n => (byteOperand n).map fun b => [encode (.crcbyte b)]
  | .crcchk => .ok [encode .crcchk]
  | .b2w n => (byteOperand n).map fun b => [encode (.b2w b)]
  | .w2b n => (wordOperand n).map fun w => [encode (.w2b w)]
  | .w2bText t => (quotedOperand t).map fun w => [encode (.w2b w)]
  | .w2binit => .ok [encode .w2binit]
  | .rdreg n => (registerNumberOperand n).map fun r => [encode (.rdreg r)]
  | .rdregName t => (registerNameOperand t).map fun r => [encode (.rdreg r)]
  | .word n => if n < 2 ^ 40 then .ok [BitVec.ofNat 40 n] else .error .outOfRange
  | .crcread => .ok [encode (.rdreg (regNumber .acc))]
  | .rdstat => .ok [encode (.rdreg (regNumber .status))]
  | .crcbytes ns => assembleBytes ns
  | .crcsum ns =>
    (assembleBytes ns).map fun cs => encode .crcinit :: cs ++ [encode (.rdreg (regNumber .acc))]

/-! ### Reading a line (the lexing is assumption 10) -/

/-- The characters that separate the parts of a line. -/
def isBlank (c : Char) : Bool := c == ' ' || c == '\t' || c == '\r'

/-- A line without its leading and trailing blanks. -/
def trimBlanks (t : Text) : Text := ((t.dropWhile isBlank).reverse.dropWhile isBlank).reverse

/-- What stands before a comment. -/
def beforeComment (t : Text) : Text := t.takeWhile (fun c => c != ';')

/-- The value of a digit, upper or lower case. -/
def digitValue (c : Char) : Option Nat :=
  if '0' ≤ c ∧ c ≤ '9' then some (c.toNat - 48)
  else if 'A' ≤ c ∧ c ≤ 'F' then some (c.toNat - 55)
  else if 'a' ≤ c ∧ c ≤ 'f' then some (c.toNat - 87)
  else none

/-- Digits in a base, added to the number read so far; `_` groups hex digits as R95 writes a word. -/
def readDigits (base : Nat) : Text → Nat → Option Nat
  | [], acc => some acc
  | c :: cs, acc =>
    if base = 16 ∧ c = '_' then readDigits base cs acc
    else
      match digitValue c with
      | some d => if d < base then readDigits base cs (acc * base + d) else none
      | none => none

/-- A number in decimal or `0x` hex (R93); it begins with a digit. -/
def readNumber (t : Text) : Except AsmError Nat :=
  match t with
  | [] => .error .badOperand
  | '0' :: 'x' :: d :: ds =>
    match if d = '_' then none else readDigits 16 (d :: ds) 0 with
    | some n => .ok n
    | none => .error .badOperand
  | c :: cs =>
    match readDigits 10 (c :: cs) 0 with
    | some n => .ok n
    | none => .error .badOperand

/-- Numbers between commas; none for an empty operand (R94). -/
def readNumbers (t : Text) : Except AsmError (List Nat) :=
  if trimBlanks t = [] then .ok []
  else (t.splitOn ',').mapM fun p => readNumber (trimBlanks p)

/-- A line without an operand. -/
def noOperand (t : Text) (src : Source) : Except AsmError (Option Source) :=
  if trimBlanks (beforeComment t) = [] then .ok (some src) else .error .badOperand

/-- A line with one number. -/
def numberOperand (t : Text) (k : Nat → Source) : Except AsmError (Option Source) :=
  (readNumber (trimBlanks (beforeComment t))).map fun n => some (k n)

/-- A line with a list of numbers. -/
def numbersOperand (t : Text) (k : List Nat → Source) : Except AsmError (Option Source) :=
  (readNumbers (trimBlanks (beforeComment t))).map fun ns => some (k ns)

/-- The double quote. -/
def quoteChar : Char := Char.ofNat 34

/-- W2B's operand: four characters in double quotes, or a number (R93). -/
def w2bOperand (t : Text) : Except AsmError (Option Source) :=
  match t.dropWhile isBlank with
  | q :: rest =>
    if q = quoteChar then
      match rest with
      | a :: b :: c :: d :: q' :: tail =>
        if q' = quoteChar then noOperand tail (.w2bText [a, b, c, d]) else .error .badOperand
      | _ => .error .badOperand
    else numberOperand t .w2b
  | [] => .error .badOperand

/-- RDREG's operand: a number or a name (R93). -/
def rdregOperand (t : Text) : Except AsmError (Option Source) :=
  let o := trimBlanks (beforeComment t)
  match o with
  | c :: _ => if c.isDigit then numberOperand t .rdreg else .ok (some (.rdregName o))
  | [] => .error .badOperand

/-- A source line (R93, R94): a mnemonic in capitals, then its operand, then an optional comment after `;`.
A blank or comment line is `none`. -/
def readLine (line : Text) : Except AsmError (Option Source) :=
  let t := line.dropWhile isBlank
  let m := t.takeWhile (fun c => !isBlank c && c != ';')
  let o := t.drop m.length
  if trimBlanks (beforeComment t) = [] then .ok none
  else if m = "CRCINIT".toList then noOperand o .crcinit
  else if m = "CRCBYTE".toList then numberOperand o .crcbyte
  else if m = "CRCCHK".toList then noOperand o .crcchk
  else if m = "B2W".toList then numberOperand o .b2w
  else if m = "W2B".toList then w2bOperand o
  else if m = "W2BINIT".toList then noOperand o .w2binit
  else if m = "RDREG".toList then rdregOperand o
  else if m = ".word".toList then numberOperand o .word
  else if m = "CRCREAD".toList then noOperand o .crcread
  else if m = "RDSTAT".toList then noOperand o .rdstat
  else if m = "CRCBYTES".toList then numbersOperand o .crcbytes
  else if m = "CRCSUM".toList then numbersOperand o .crcsum
  else .error .unknownMnemonic

/-- A source line as command words (R93, R94). -/
def assembleLine (line : Text) : Except AsmError (List Word40) :=
  match readLine line with
  | .ok (some src) => assemble src
  | .ok none => .ok []
  | .error e => .error e

/-- One command per line (R93). -/
def assembleProgram (lines : List Text) : Except AsmError (List Word40) :=
  (lines.mapM assembleLine).map List.flatten

/-- A hex digit, capitals as the spec writes them. -/
def hexDigit (n : BitVec 4) : Char :=
  if n.toNat < 10 then Char.ofNat (48 + n.toNat) else Char.ofNat (55 + n.toNat)

/-- A 40-bit word as text: `0x`, ten hex digits, an underscore after the first two (R95). -/
def word40Text (c : Word40) : Text :=
  let digit (k : Nat) : Char := hexDigit (c.extractLsb' (4 * k) 4)
  ['0', 'x', digit 9, digit 8, '_', digit 7, digit 6, digit 5, digit 4, digit 3, digit 2, digit 1, digit 0]

end Sys2Proof.Machine
end

