-- ==== Sys2Proof/Safety.lean ====
section
/-! DEFINITION. The terms claims are stated in: the invariant of the reachable states (10_state.md R36), the spec's own
condition for a legal word (30_encoding.md R86), the groups of commands (41_lookup.md R148), the operands and the
responses of a group within a run, one-bit errors (40_crc.md R127), and what a safe step is (60_exceptions.md R211). -/

namespace Sys2Proof

open Sys2Proof.Machine

/-- R36: with no miss on record the record is zero; with one, the recorded word is no entry. -/
def MissRecordSound (s : State) : Prop :=
  (s.iw = false → s.errWord = 0#32 ∧ s.errPos = 0#32) ∧ (s.iw = true → rev s.rom s.errWord = none)

/-- R86's table, as the spec states it: the conditions on `op` and `arg` under which a word is legal. -/
def LegalCommand (c : Word40) : Prop :=
  let op := c.toNat / 2 ^ 32
  let arg := c.toNat % 2 ^ 32
  ((op = 0x01 ∨ op = 0x03 ∨ op = 0x12) ∧ arg = 0) ∨
  ((op = 0x02 ∨ op = 0x10) ∧ arg / 2 ^ 8 = 0) ∨
  (op = 0x20 ∧ arg / 2 ^ 8 = 0 ∧ arg % 2 ^ 8 ≤ 5) ∨
  op = 0x11

/-- What R204 lists for an illegal word with opcode byte `op`: IC set, ILLEGAL_CMD answered with `op`, no more. -/
def illegalEffect (op : Byte) (s : State) : State :=
  { s with ic := true, responses := s.responses ++ [⟨.illegalCmd, op.setWidth 32⟩] }

/-- The outcome is a next state that a condition holds of. -/
def NextWith (o : Outcome) (p : State → Prop) : Prop := ∃ t, o = .next t ∧ p t

/-- A safe step: it answers a next state, with exactly one response more (R61, R211). -/
def Answers (s : State) (o : Outcome) : Prop :=
  NextWith o fun t => ∃ r, t.responses = s.responses ++ [r]

/-! ### Groups of commands (R148) -/

/-- CRCINIT, CRCBYTE, CRCCHK. -/
def isCrcWord (c : Word40) : Bool :=
  match decode? c with
  | some .crcinit => true
  | some (.crcbyte _) => true
  | some .crcchk => true
  | _ => false

/-- W2B and W2BINIT. -/
def isW2bGroupWord (c : Word40) : Bool :=
  match decode? c with
  | some (.w2b _) => true
  | some .w2binit => true
  | _ => false

/-- W2B alone. -/
def isW2bWord (c : Word40) : Bool :=
  match decode? c with
  | some (.w2b _) => true
  | _ => false

/-- B2W. -/
def isB2wWord (c : Word40) : Bool :=
  match decode? c with
  | some (.b2w _) => true
  | _ => false

/-- The operands of the CRCBYTE commands among some words, in order. -/
def crcOperands (cs : List Word40) : List Byte :=
  cs.filterMap fun c =>
    match decode? c with
    | some (.crcbyte b) => some b
    | _ => none

/-- The operands of the W2B commands among some words, in order. -/
def w2bOperands (cs : List Word40) : List Word :=
  cs.filterMap fun c =>
    match decode? c with
    | some (.w2b w) => some w
    | _ => none

/-- The responses a run added. -/
def newResponses (s t : State) : List Response := t.responses.drop s.responses.length

/-- The responses to the commands a condition selects, in order: response `k` answers command `k` (R61). -/
def answersTo (p : Word40 → Bool) (cs : List Word40) (rs : List Response) : List Response :=
  ((cs.zip rs).filter fun x => p x.1).map Prod.snd

/-- The responses R143 gives a list of W2B operands from a position on. -/
def w2bAnswers (t : WordTable) : Word → List Word → List Response
  | _, [] => []
  | p, w :: ws =>
    (if w ∈ t.entries then ⟨.ok, BitVec.ofNat 32 (t.entries.idxOf w)⟩ else ⟨.invalidWord, p⟩) ::
      w2bAnswers t (p + 1#32) ws

/-! ### Byte sequences -/

/-- A message with one bit of one byte flipped (R127). -/
def flipBit (m : List Byte) (i k : Nat) : List Byte := m.modify i fun b => b ^^^ (1#8 <<< k)

/-- The bytewise XOR of two sequences (R125 (d)). -/
def xorBytes (s e : List Byte) : List Byte := List.zipWith (· ^^^ ·) s e

/-- The text of a token is no entry of a table: it is not four 8-bit characters, or its word misses (R177). -/
def badToken (t : WordTable) (tok : Text) : Bool :=
  match packToken tok with
  | some w => !(t.entries.contains w)
  | none => true

/-- The bytes of tokens that are entries. -/
def tokenBytes (t : WordTable) (toks : List Text) : List Byte :=
  toks.filterMap fun tok => (packToken tok).bind (rev t)

/-- T_EX (R11): the five entries the source gives of one table. -/
def TEx (t : WordTable) : Prop :=
  romRead t 0x01#8 = 0x6576696C#32 ∧ romRead t 0x02#8 = 0x6C616479#32 ∧ romRead t 0x03#8 = 0x63686970#32 ∧
    romRead t 0x04#8 = 0x74757475#32 ∧ romRead t 0xE3#8 = 0x68756C6C#32

end Sys2Proof
end

