-- ==== Sys2Proof/Certificates/Slice0/Obligations.lean ====
section
/-! DEFINITION. The statements about PBCORE, one definition each, listed in OBLIGATIONS.json. -/

open Sys2Proof Sys2Proof.Machine

/-! ### The seven commands: encoding, result, frame (the whole next state), completion, illegal forms -/

/-- R120. -/
def Obligations.CrcinitStartsChecksum : Prop :=
  decode (word40 0x01#8 0#32) = .ok .crcinit ∧
  (∀ s : State, exec .crcinit s =
    .next { s with acc := 0x00#8, responses := s.responses ++ [⟨.ok, 0#32⟩] }) ∧
  ∀ (s : State) (arg : Word), arg ≠ 0#32 →
    executeWord (word40 0x01#8 arg) s = .next (illegalEffect 0x01#8 s)

/-- R121, with R111 and R112: `bit` is any function that does what R111 says one iteration does. -/
def Obligations.CrcbyteFoldsOneByte : Prop :=
  ∀ bit : Byte → Byte,
    (∀ a, bit a = if a.getLsbD 7 then ((a <<< 1) &&& 0xFF#8) ^^^ 0x07#8 else (a <<< 1) &&& 0xFF#8) →
    (∀ b : Byte, decode (word40 0x02#8 (b.setWidth 32)) = .ok (.crcbyte b)) ∧
    (∀ (s : State) (b : Byte), exec (.crcbyte b) s =
      .next { s with
        acc := bit (bit (bit (bit (bit (bit (bit (bit (s.acc ^^^ b))))))))
        responses := s.responses ++ [⟨.ok, 0#32⟩] }) ∧
    ∀ (s : State) (arg : Word), 256 ≤ arg.toNat →
      executeWord (word40 0x02#8 arg) s = .next (illegalEffect 0x02#8 s)

/-- R122, R203. -/
def Obligations.CrcchkTestsResidue : Prop :=
  decode (word40 0x03#8 0#32) = .ok .crcchk ∧
  (∀ s : State, s.acc = 0x00#8 →
    exec .crcchk s = .next { s with responses := s.responses ++ [⟨.ok, 0#32⟩] }) ∧
  (∀ s : State, s.acc ≠ 0x00#8 →
    exec .crcchk s = .next { s with responses := s.responses ++ [⟨.crcMismatch, s.acc.setWidth 32⟩] }) ∧
  ∀ (s : State) (arg : Word), arg ≠ 0#32 →
    executeWord (word40 0x03#8 arg) s = .next (illegalEffect 0x03#8 s)

/-- R140, R52: every index has an entry, and the entry is answered. -/
def Obligations.B2wAnswersEntry : Prop :=
  (∀ b : Byte, decode (word40 0x10#8 (b.setWidth 32)) = .ok (.b2w b)) ∧
  (∀ (s : State) (b : Byte), ∃ w, s.rom.entries[b.toNat]? = some w ∧
    exec (.b2w b) s = .next { s with responses := s.responses ++ [⟨.ok, w⟩] }) ∧
  ∀ (s : State) (arg : Word), 256 ≤ arg.toNat →
    executeWord (word40 0x10#8 arg) s = .next (illegalEffect 0x10#8 s)

/-- R143, R202: the hit, the miss, and corner case (d): what is not four lowercase letters always misses. -/
def Obligations.W2bLooksUpWord : Prop :=
  (∀ w : Word, decode (word40 0x11#8 w) = .ok (.w2b w)) ∧
  (∀ (s : State) (w : Word) (i : Nat), s.rom.entries[i]? = some w →
    exec (.w2b w) s =
      .next { s with
        pos := BitVec.ofNat 32 (s.pos.toNat + 1)
        responses := s.responses ++ [⟨.ok, BitVec.ofNat 32 i⟩] }) ∧
  (∀ (s : State) (w : Word), w ∉ s.rom.entries →
    exec (.w2b w) s =
      .next { s with
        pos := BitVec.ofNat 32 (s.pos.toNat + 1)
        iw := true
        errWord := if s.iw then s.errWord else w
        errPos := if s.iw then s.errPos else s.pos
        responses := s.responses ++ [⟨.invalidWord, s.pos⟩] }) ∧
  ∀ (t : WordTable) (w : Word) (k : Nat), k < 4 →
    ((w.extractLsb' (8 * k) 8).toNat < 0x61 ∨ 0x7A < (w.extractLsb' (8 * k) 8).toNat) → w ∉ t.entries

/-- R145. -/
def Obligations.W2binitStartsSequence : Prop :=
  decode (word40 0x12#8 0#32) = .ok .w2binit ∧
  (∀ s : State, exec .w2binit s =
    .next { s with
      pos := 0#32
      iw := false
      errWord := 0#32
      errPos := 0#32
      responses := s.responses ++ [⟨.ok, 0#32⟩] }) ∧
  ∀ (s : State) (arg : Word), arg ≠ 0#32 →
    executeWord (word40 0x12#8 arg) s = .next (illegalEffect 0x12#8 s)

/-- R160, R29: the six registers and views; nothing else changes. -/
def Obligations.RdregReadsRegister : Prop :=
  (∀ r : Byte, r.toNat ≤ 5 → decode (word40 0x20#8 (r.setWidth 32)) = .ok (.rdreg r)) ∧
  (∀ s : State,
    exec (.rdreg 0#8) s = .next { s with responses := s.responses ++
      [⟨.ok, BitVec.ofNat 32 ((if s.ic then 2 else 0) + if s.iw then 1 else 0)⟩] } ∧
    exec (.rdreg 1#8) s = .next { s with responses := s.responses ++ [⟨.ok, s.acc.setWidth 32⟩] } ∧
    exec (.rdreg 2#8) s = .next { s with responses := s.responses ++ [⟨.ok, s.pos⟩] } ∧
    exec (.rdreg 3#8) s = .next { s with responses := s.responses ++ [⟨.ok, s.errWord⟩] } ∧
    exec (.rdreg 4#8) s = .next { s with responses := s.responses ++ [⟨.ok, s.errPos⟩] } ∧
    exec (.rdreg 5#8) s = .next { s with responses := s.responses ++ [⟨.ok, 0x00000007#32⟩] }) ∧
  ∀ (s : State) (arg : Word), 6 ≤ arg.toNat →
    executeWord (word40 0x20#8 arg) s = .next (illegalEffect 0x20#8 s)

/-- The model's reading (assumption 6) of a term that no legal word decodes to: RDREG of a number 6 to 255 takes
ILLEGAL_CMD, as the word it would encode to does (R28, R86, R204). -/
def Obligations.RdregOfNoRegisterIsIllegal : Prop :=
  ∀ (s : State) (r : Byte), 6 ≤ r.toNat →
    exec (.rdreg r) s = .next (illegalEffect 0x20#8 s) ∧
    executeWord (encode (.rdreg r)) s = .next (illegalEffect 0x20#8 s)

/-! ### Encoding and decoding -/

/-- R86, R91: the decoder accepts exactly the words R86's table calls legal, which are exactly the words that match a
row of the opcode table, and no word matches two rows. -/
def Obligations.LegalWordsAreTableRows : Prop :=
  (∀ c : Word40, (∃ i, decode c = .ok i) ↔ LegalCommand c) ∧
  (∀ c : Word40, (∃ i, decode c = .ok i) ↔ ∃ row ∈ opcodeRows, rowMatches row c = true) ∧
  (∀ (c : Word40) (j k : Fin 8), rowMatches (opcodeRows.get j) c = true →
    rowMatches (opcodeRows.get k) c = true → j = k) ∧
  ∀ (c : Word40) (i : Instr) (row : Row), row ∈ opcodeRows → rowMatches row c = true →
    decode c = .ok i → mnemonic i = row.mnemonic

/-- R91's count of the legal words. -/
def Obligations.LegalWordCount : Prop := Nat.card { c : Word40 // legal c = true } = 2 ^ 32 + 521

/-- Decoding an encoded well-formed instruction gives it back (R84, R85, R91). -/
def Obligations.DecodeOfEncode : Prop := ∀ i : Instr, i.WellFormed = true → decode (encode i) = .ok i

/-- The other direction: a legal word is the encoding of the one well-formed instruction it decodes to. -/
def Obligations.EncodeOfDecode : Prop :=
  ∀ (c : Word40) (i : Instr), decode c = .ok i → encode i = c ∧ i.WellFormed = true

/-- Words of 30_encoding.md R93 and 95_test_vectors.md, as the spec writes them. -/
def Obligations.SampleWordsDecode : Prop :=
  decode 0x0100000000#40 = .ok .crcinit ∧ decode 0x0200000001#40 = .ok (.crcbyte 0x01#8) ∧
  decode 0x0300000000#40 = .ok .crcchk ∧ decode 0x10000000E3#40 = .ok (.b2w 0xE3#8) ∧
  decode 0x116576696C#40 = .ok (.w2b 0x6576696C#32) ∧ decode 0x1200000000#40 = .ok .w2binit ∧
  decode 0x2000000001#40 = .ok (.rdreg 0x01#8) ∧ decode 0x0000000000#40 = .error (.reservedOpcode 0x00#8) ∧
  decode 0xFFFFFFFFFF#40 = .error (.reservedOpcode 0xFF#8) ∧
  decode 0x2000000006#40 = .error (.noSuchRegister 0x06#8)

/-- R95: five bytes, most significant first, carry a word both ways. -/
def Obligations.BytesCarryWords : Prop :=
  (∀ c : Word40, wordOfBytes (wordBytes c) = some c ∧ decodeBytes (wordBytes c) = decode c) ∧
  (∀ (bs : List Byte) (c : Word40), wordOfBytes bs = some c → wordBytes c = bs) ∧
  ∀ (c : Word40) (k : Nat), k < 5 → (wordBytes c)[k]? = some (BitVec.ofNat 8 (c.toNat / 2 ^ (8 * (4 - k))))

/-- R88, R89, R200: every response of a step carries one of the codes 0, 3, 4 and 5, and the data bits above an 8-bit
value are 0 for the two faults that carry one. -/
def Obligations.BlockStatusCodes : Prop :=
  ∀ (s : State) (c : Word40), ∃ t r, executeWord c s = .next t ∧ t.responses = s.responses ++ [r] ∧
    (responseWord r).toNat / 2 ^ 32 ∈ [0, 3, 4, 5] ∧ (responseWord r).toNat % 2 ^ 32 = r.data.toNat ∧
    ((r.status = .crcMismatch ∨ r.status = .illegalCmd) → r.data.toNat < 256)

/-! ### The step -/

/-- A step runs the instruction that the presented word decodes to. -/
def Obligations.StepRunsDecoded : Prop :=
  ∀ (s : State) (c : Word40) (ms : List HostMove) (i : Instr), s.moves = .command c :: ms → decode c = .ok i →
    step s = exec i { s with moves := ms }

/-- R204, R86: an illegal word, whatever the state, sets IC, answers its opcode byte, and does nothing else. -/
def Obligations.IllegalWordTakesIllegalCmd : Prop :=
  ∀ (s : State) (c : Word40) (ms : List HostMove), s.moves = .command c :: ms → ¬ LegalCommand c →
    step s = .next { s with
      ic := true
      moves := ms
      responses := s.responses ++ [⟨.illegalCmd, BitVec.ofNat 32 (c.toNat / 2 ^ 32)⟩] }

/-- A reset taken between two commands (R230, R231, R232). That the queue behind it and the responses already given
stay is the model's own convention (assumption 4). -/
def Obligations.StepTakesReset : Prop :=
  ∀ (s : State) (ms : List HostMove), s.moves = .reset :: ms →
    step s = .next
      { acc := 0#8, pos := 0#32, iw := false, ic := false, errWord := 0#32, errPos := 0#32,
        rom := s.rom, moves := ms, responses := s.responses }

/-- With no move presented the block waits: no change and no unsolicited response (R6, R208, R216; that the model's
step then answers the same state is assumption 5). -/
def Obligations.StepWaitsWithoutMove : Prop := ∀ s : State, s.moves = [] → step s = .next s

/-- R35: the reset state, register by register, with the POLY view and the ROM. -/
def Obligations.ResetState : Prop :=
  State.reset.acc = 0x00#8 ∧ State.reset.pos = 0#32 ∧ State.reset.iw = false ∧ State.reset.ic = false ∧
  State.reset.errWord = 0#32 ∧ State.reset.errPos = 0#32 ∧ State.reset.readReg .poly = 0x07#32 ∧
  State.reset.rom = Config.wordTable

/-- R61, R211: whatever the state and the word, the step answers, with exactly one response, and is ready for the
next move. -/
def Obligations.StepAlwaysAnswers : Prop :=
  ∀ (s : State) (c : Word40) (ms : List HostMove), s.moves = .command c :: ms →
    ∃ t r, step s = .next t ∧ t.responses = s.responses ++ [r] ∧ t.moves = ms

/-- R36: every step keeps the invariant of the record of misses, from every state that has it. -/
def Obligations.StepKeepsMissRecord : Prop :=
  ∀ s t : State, MissRecordSound s → step s = .next t → MissRecordSound t

/-- The reset state has the invariant. -/
def Obligations.ResetHasMissRecord : Prop := MissRecordSound State.reset

/-- R51, R31: no step changes an entry of the ROM; nor does any list of host moves, reset among them (R231). -/
def Obligations.RomNeverChanges : Prop :=
  (∀ s t : State, step s = .next t → ∀ i : Byte, romRead t.rom i = romRead s.rom i) ∧
  ∀ (ms : List HostMove) (s t : State), performAll ms s = .next t → t.rom = s.rom

/-- R26: without a reset, IC ends up set exactly when it was set or an illegal word arrived. -/
def Obligations.IllegalFlagIsSticky : Prop :=
  ∀ (cs : List Word40) (s : State), ∃ t, runCommands cs s = .next t ∧
    (t.ic = true ↔ s.ic = true ∨ ∃ c ∈ cs, ¬ LegalCommand c)

/-- R60, R189, R232: queueing a list of moves, resets among them, and stepping once for each is performing them one at
a time. It rests on the model's own queue `State.moves` (assumption 3, DESIGN CHOICE) and on the queue behind a reset
staying (assumption 4, DESIGN CHOICE). -/
def Obligations.QueueRunsInOrder : Prop :=
  ∀ (ms : List HostMove) (s : State), s.moves = [] →
    Host.Core.run Sys2Proof.core ms.length { s with moves := ms } = performAll ms s

/-- R60, R61: command `n + 1` starts from the state command `n` left, and `n` commands give `n` responses in order. -/
def Obligations.RunsComposeInOrder : Prop :=
  ∀ (cs ds : List Word40) (s : State), ∃ t u,
    runCommands cs s = .next t ∧ runCommands ds t = .next u ∧ runCommands (cs ++ ds) s = .next u ∧
    t.responses.length = s.responses.length + cs.length ∧ s.responses <+: t.responses ∧
    t.responses <+: u.responses

/-- R230: after a reset nothing earlier shows: the registers and the new responses are those of a run that starts at
the reset state of a block with the same ROM. That `u.moves` is `s.moves` (the queue stays across the reset) and that the
responses already given stay is the model's own convention (assumption 4, DESIGN CHOICE), no rule's. -/
def Obligations.ResetForgetsHistory : Prop :=
  ∀ (ms : List HostMove) (cs : List Word40) (s : State), ∃ t u v,
    performAll (ms ++ [.reset]) s = .next t ∧ runCommands cs t = .next u ∧
    runCommands cs { State.reset with rom := s.rom } = .next v ∧
    u = { v with moves := s.moves, responses := t.responses ++ v.responses }

/-! ### Reads -/

/-- R59: B2W and RDREG change no state, and repeated give the same response. -/
def Obligations.ReadsAreIdempotent : Prop :=
  ∀ (s : State) (c : Word40) (i : Instr), decode c = .ok i → ((∃ b, i = .b2w b) ∨ ∃ r, i = .rdreg r) →
    ∃ r, runCommands [c, c] s = .next { s with responses := s.responses ++ [r, r] }

/-- R56, R57: `rev` finds exactly the entries, and the two lookups are inverse to each other. -/
def Obligations.LookupsAreInverse : Prop :=
  (∀ (t : WordTable) (w : Word) (i : Byte), rev t w = some i ↔ t.entries[i.toNat]? = some w) ∧
  (∀ (t : WordTable) (i : Byte), rev t (romRead t i) = some i) ∧
  ∀ (t : WordTable) (w : Word) (i : Byte), rev t w = some i → romRead t i = w

/-- R149: B2W answers the entry, and the round trips through the two engines, command by command. -/
def Obligations.EnginesRoundTrip : Prop :=
  (∀ (s : State) (b : Byte), ∃ t u,
    exec (.b2w b) s = .next t ∧ t.responses = s.responses ++ [⟨.ok, romRead s.rom b⟩] ∧
    exec (.w2b (romRead s.rom b)) t = .next u ∧ u.responses = t.responses ++ [⟨.ok, b.setWidth 32⟩]) ∧
  ∀ (s t : State) (w d : Word), exec (.w2b w) s = .next t → t.responses = s.responses ++ [⟨.ok, d⟩] →
    d.toNat < 256 ∧ ∃ u, exec (.b2w (d.setWidth 8)) t = .next u ∧ u.responses = t.responses ++ [⟨.ok, w⟩]

/-- R67, R212 (b): two blocks with different tables can read the same word as different bytes, both answering OK. -/
def Obligations.TableMismatchIsSilent : Prop :=
  ∃ (s s' : State) (b i : Byte) (w : Word) (t t' : State), i ≠ b ∧
    exec (.b2w b) s = .next t ∧ t.responses = s.responses ++ [⟨.ok, w⟩] ∧
    exec (.w2b w) s' = .next t' ∧ t'.responses = s'.responses ++ [⟨.ok, i.setWidth 32⟩]

/-! ### The CRC -/

/-- The literal scenario of R118, the trace of R117's second row and the check value of R129. -/
def Obligations.CrcWorkedValues : Prop :=
  crc [] = 0x00#8 ∧ crc [0x01#8] = 0x07#8 ∧ crc [0x80#8] = 0x89#8 ∧ crc [0xFF#8] = 0xF3#8 ∧
  crc [0x01#8, 0x02#8, 0x03#8, 0x04#8] = 0xE3#8 ∧
  crc [0x31#8, 0x32#8, 0x33#8, 0x34#8, 0x35#8, 0x36#8, 0x37#8, 0x38#8, 0x39#8] = 0xF4#8

/-- R124: the zero residue, for every polynomial (93 U3), PBCORE's among them. -/
def Obligations.ZeroResidue : Prop :=
  (∀ p : List Byte, crc (p ++ [crc p]) = 0x00#8) ∧
  ∀ (poly : Byte) (p : List Byte), crcOver poly (p ++ [crcOver poly p]) = 0x00#8

/-- R125: linearity, parts (a) to (d). -/
def Obligations.CrcIsLinear : Prop :=
  (∀ a a' : Byte, crcBit (a ^^^ a') = crcBit a ^^^ crcBit a') ∧
  (∀ a b : Byte, crcByte a b = crcByte 0x00#8 (a ^^^ b) ∧ crcByte a b = crcByte (a ^^^ b) 0x00#8) ∧
  (∀ a a' b b' : Byte, crcByte (a ^^^ a') (b ^^^ b') = crcByte a b ^^^ crcByte a' b') ∧
  ∀ s e : List Byte, s.length = e.length → crc (xorBytes s e) = crc s ^^^ crc e

/-- R126: `crc_bit` and `b ↦ crc_byte(0x00, b)` are bijections, and verification accepts exactly the messages whose
last byte is the checksum of the bytes before it. -/
def Obligations.CrcIsBijective : Prop :=
  Function.Bijective crcBit ∧ Function.Bijective (crcByte 0x00#8) ∧ crcByte 0x00#8 0x00#8 = 0x00#8 ∧
  (∀ a : Byte, (crcBit a).getLsbD 0 = a.getLsbD 7) ∧
  ∀ (p : List Byte) (c : Byte), crc (p ++ [c]) = 0x00#8 ↔ c = crc p

/-- R127: every single-bit error in a checksummed message leaves a nonzero residue. -/
def Obligations.SingleBitErrorsDetected : Prop :=
  ∀ (p : List Byte) (i k : Nat), i < p.length + 1 → k < 8 → crc (flipBit (p ++ [crc p]) i k) ≠ 0x00#8

/-- R127 at the block: fed with the corrupted message, CRCCHK answers CRC_MISMATCH. -/
def Obligations.CrcchkCatchesSingleBitErrors : Prop :=
  ∀ (s : State) (p : List Byte) (i k : Nat), i < p.length + 1 → k < 8 →
    ∃ t d, runCommands
        (encode .crcinit :: (flipBit (p ++ [crc p]) i k).map (fun b => encode (.crcbyte b)) ++ [encode .crcchk]) s
      = .next t ∧ t.responses.getLast? = some ⟨.crcMismatch, d⟩ ∧ d ≠ 0#32

/-- R128, R119: leading zero bytes are invisible, for every polynomial (93 U3). -/
def Obligations.LeadingZerosInvisible : Prop :=
  ∀ (poly : Byte) (k : Nat) (s : List Byte), crcOver poly (List.replicate k 0x00#8 ++ s) = crcOver poly s

/-- R115: as polynomials over the field of two elements, `crc_bit` multiplies by `x` and `crc_byte` by `x^8`, modulo
`x^8 + x^2 + x + 1`. -/
def Obligations.CrcIsPolynomialDivision : Prop :=
  ∀ poly : Byte → Polynomial (ZMod 2),
    (∀ a, poly a = ∑ k ∈ Finset.range 8, if a.getLsbD k then (Polynomial.X : Polynomial (ZMod 2)) ^ k else 0) →
    (∀ a : Byte, poly (crcBit a) = (poly a * Polynomial.X).modByMonic
      (Polynomial.X ^ 8 + Polynomial.X ^ 2 + Polynomial.X + 1)) ∧
    ∀ a b : Byte, poly (crcByte a b) = (poly (a ^^^ b) * Polynomial.X ^ 8).modByMonic
      (Polynomial.X ^ 8 + Polynomial.X ^ 2 + Polynomial.X + 1)

/-- R123: a checksum is read correctly whatever commands that do not write ACC lie between; from a zero accumulator,
as straight after reset, CRCINIT may be omitted. -/
def Obligations.ChecksumSequence : Prop :=
  ∀ (s : State) (mid : List Word40), (∀ c ∈ mid, decode? c ≠ some .crcinit) →
    (∃ t, runCommands (encode .crcinit :: mid ++ [encode (.rdreg 1#8)]) s = .next t ∧
      t.acc = crc (crcOperands mid) ∧
      t.responses.getLast? = some ⟨.ok, (crc (crcOperands mid)).setWidth 32⟩) ∧
    (s.acc = 0x00#8 → ∃ t, runCommands (mid ++ [encode (.rdreg 1#8)]) s = .next t ∧
      t.acc = crc (crcOperands mid) ∧
      t.responses.getLast? = some ⟨.ok, (crc (crcOperands mid)).setWidth 32⟩)

/-- R240: without CRCINIT a second message continues the first; that is harmless exactly when the first left zero. -/
def Obligations.MissingCrcinitContinues : Prop :=
  (∀ (s : State) (p q : List Byte), ∃ t,
    runCommands (encode .crcinit :: (p ++ q).map fun b => encode (.crcbyte b)) s = .next t ∧
    t.acc = q.foldl crcByte (crc p)) ∧
  ∀ p q : List Byte, q.foldl crcByte (crc p) = crc q ↔ crc p = 0x00#8

/-! ### The units together -/

/-- R148: each group of commands writes its own registers only, and in any interleaving it gets the responses and the
final registers it would have alone; the illegal words decide IC in the same way. -/
def Obligations.UnitsAreIndependent : Prop :=
  ∀ (cs : List Word40) (s : State), ∃ t u v x y,
    runCommands cs s = .next t ∧
    (runCommands (cs.filter isCrcWord) s = .next u ∧ u = { s with acc := u.acc, responses := u.responses } ∧
      t.acc = u.acc ∧ answersTo isCrcWord cs (newResponses s t) = newResponses s u) ∧
    (runCommands (cs.filter isW2bGroupWord) s = .next v ∧
      v = { s with
        pos := v.pos
        iw := v.iw
        errWord := v.errWord
        errPos := v.errPos
        responses := v.responses } ∧
      t.pos = v.pos ∧ t.iw = v.iw ∧ t.errWord = v.errWord ∧ t.errPos = v.errPos ∧
      answersTo isW2bGroupWord cs (newResponses s t) = newResponses s v) ∧
    (runCommands (cs.filter isB2wWord) s = .next x ∧ x = { s with responses := x.responses } ∧
      answersTo isB2wWord cs (newResponses s t) = newResponses s x) ∧
    (runCommands (cs.filter fun c => !legal c) s = .next y ∧ y = { s with ic := y.ic, responses := y.responses } ∧
      t.ic = y.ic ∧ answersTo (fun c => !legal c) cs (newResponses s t) = newResponses s y)

/-- R146, R147: after W2BINIT or a reset, W2B command number `k` answers against position `k` (modulo `2^32`), and
the record is that of the first miss, whatever lies between. -/
def Obligations.FirstMissDetermines : Prop :=
  (∀ s : State, s.resetRegisters.pos = 0#32 ∧ s.resetRegisters.iw = false ∧
    s.resetRegisters.errWord = 0#32 ∧ s.resetRegisters.errPos = 0#32) ∧
  (∀ s : State, NextWith (exec .w2binit s) fun t =>
    t.pos = 0#32 ∧ t.iw = false ∧ t.errWord = 0#32 ∧ t.errPos = 0#32) ∧
  ∀ (s : State) (cs : List Word40),
    s.pos = 0#32 → s.iw = false → s.errWord = 0#32 → s.errPos = 0#32 →
    (∀ c ∈ cs, decode? c ≠ some .w2binit) →
    ∃ t, runCommands cs s = .next t ∧ t.pos = BitVec.ofNat 32 (w2bOperands cs).length ∧
      answersTo isW2bWord cs (newResponses s t) = w2bAnswers s.rom 0#32 (w2bOperands cs) ∧
      (match (w2bOperands cs).findIdx? (fun w => !(s.rom.entries.contains w)) with
       | none => t.iw = false ∧ t.errWord = 0#32 ∧ t.errPos = 0#32
       | some j => t.iw = true ∧ (w2bOperands cs)[j]? = some t.errWord ∧ t.errPos = BitVec.ofNat 32 j)

/-- R241: without W2BINIT an old miss stays on record and positions continue. -/
def Obligations.MissingW2binitKeepsRecord : Prop :=
  ∀ (s : State) (ws : List Word), s.iw = true →
    ∃ t, runCommands (ws.map fun w => encode (.w2b w)) s = .next t ∧
      t.iw = true ∧ t.errWord = s.errWord ∧ t.errPos = s.errPos ∧
      t.pos = s.pos + BitVec.ofNat 32 ws.length ∧ newResponses s t = w2bAnswers s.rom s.pos ws

/-- R236: CRCINIT and W2BINIT produce the reset state of every register but IC. -/
def Obligations.InitsProduceResetRegisters : Prop :=
  ∀ s : State, NextWith (runCommands [encode .crcinit, encode .w2binit] s) fun t =>
    t = { State.reset with
      ic := s.ic
      rom := s.rom
      moves := s.moves
      responses := s.responses ++ [⟨.ok, 0#32⟩, ⟨.ok, 0#32⟩] }

/-! ### The host's sequences -/

/-- R175, R176: bytes_to_words and words_to_bytes are inverse to each other. -/
def Obligations.BytesAndWordsRoundTrip : Prop :=
  (∀ (s : State) (bs : List Byte), ∃ t u,
    bytesToWords bs s = some (bs.map (romRead s.rom), t) ∧
    wordsToBytes (bs.map (romRead s.rom)) t = some (.ok bs, u)) ∧
  ∀ (s : State) (ws : List Word), (∀ w ∈ ws, w ∈ s.rom.entries) →
    ∃ bs t u, wordsToBytes ws s = some (.ok bs, t) ∧ bytesToWords bs t = some (ws, u)

/-- R176, R146: the first word that is no entry is the one reported, with its zero-based position, and is the one the
block records (93 U4: for fewer than `2^32` words before it). -/
def Obligations.WordsToBytesReportsFirstMiss : Prop :=
  ∀ (s : State) (pre : List Word) (w : Word) (post : List Word),
    (∀ v ∈ pre, v ∈ s.rom.entries) → w ∉ s.rom.entries → pre.length < 2 ^ 32 →
    ∃ t, wordsToBytes (pre ++ w :: post) s = some (.error ⟨w, pre.length⟩, t) ∧
      t.iw = true ∧ t.errWord = w ∧ t.errPos = BitVec.ofNat 32 pre.length ∧
      t.pos = BitVec.ofNat 32 (pre.length + 1)

/-- R173, R174, R178: what `encode` yields, the length of its text, and the state it leaves. -/
def Obligations.EncodeYieldsMessage : Prop :=
  ∀ (s : State) (p : List Byte), ∃ t text,
    hostEncode p s = some (text, t) ∧
    text = List.intercalate ['-'] ((p ++ [crc p]).map fun b => wordText (romRead s.rom b)) ∧
    text.length = 4 * (p.length + 1) + p.length ∧
    t = { s with acc := crc p, responses := t.responses }

/-- R178: the interleaved encode gives the same text and leaves the same registers. Which of CRCBYTE and B2W goes first
is the model's choice (assumption 16, DESIGN CHOICE). -/
def Obligations.InterleavedEncodeAgrees : Prop :=
  ∀ (s : State) (p : List Byte), ∃ text t u,
    hostEncode p s = some (text, t) ∧ hostEncodeInterleaved p s = some (text, u) ∧
    u = { t with responses := u.responses }

/-- R185: decoding an encoded payload of length at least 1 gives it back, with and without verification, on any block
with the same table and for any setting of the host's parameters. -/
def Obligations.DecodeOfEncodedPayload : Prop :=
  ∀ (hp : HostParams) (s s' : State) (p : List Byte), p ≠ [] → s'.rom = s.rom →
    ∃ text t, hostEncode p s = some (text, t) ∧
      ∀ verify : Bool, ∃ u, hostDecode hp text verify s' = some (.ok p, u)

/-- R179, R183, R184, R205, R206: the result of `decode`, failure by failure in the order of its steps. -/
def Obligations.DecodeResultInOrder : Prop :=
  ∀ (hp : HostParams) (s : State) (text : Text) (verify : Bool), (splitTokens hp text).length ≤ 2 ^ 32 →
    (trim hp.ws text = [] → hostDecode hp text verify s = some (.error .emptyInput, s)) ∧
    (trim hp.ws text ≠ [] → (splitTokens hp text).length < 2 →
      hostDecode hp text verify s = some (.error .tooShort, s)) ∧
    (trim hp.ws text ≠ [] → 2 ≤ (splitTokens hp text).length →
      ∀ (k : Nat) (tok : Text), (splitTokens hp text).findIdx? (badToken s.rom) = some k →
        (splitTokens hp text)[k]? = some tok →
        ∃ t, hostDecode hp text verify s = some (.error (.invalidWord tok k), t)) ∧
    (trim hp.ws text ≠ [] → 2 ≤ (splitTokens hp text).length →
      (splitTokens hp text).findIdx? (badToken s.rom) = none →
        let bytes := tokenBytes s.rom (splitTokens hp text)
        bytes.length = (splitTokens hp text).length ∧
        ∃ t, hostDecode hp text verify s =
          some (if verify = true ∧ crc bytes ≠ 0x00#8 then .error .crcMismatch else .ok bytes.dropLast, t))

/-- R182: without verification `decode` never fails on the checksum and leaves ACC alone, and it succeeds on whatever
fails with verification on the checksum only. -/
def Obligations.TolerantDecode : Prop :=
  (∀ (hp : HostParams) (s t : State) (text : Text) (res : Except HostError (List Byte)),
    hostDecode hp text false s = some (res, t) → res ≠ .error .crcMismatch ∧ t.acc = s.acc) ∧
  ∀ (hp : HostParams) (s t : State) (text : Text),
    hostDecode hp text true s = some (.error .crcMismatch, t) →
    ∃ bytes u, hostDecode hp text false s = some (.ok bytes, u)

/-- R180: the interleaved decode gives the same result as the one in phases. The interleaving is the model's choice
among those R180 allows (assumption 16, DESIGN CHOICE); the registers left after a failure are not compared. -/
def Obligations.InterleavedDecodeAgrees : Prop :=
  ∀ (hp : HostParams) (s : State) (text : Text), ∃ res t u,
    hostDecode hp text true s = some (res, t) ∧ hostDecodeInterleaved hp text s = some (res, u)

/-- R186: the empty payload encodes to the one word `ROM[0]`, whose text does not decode. -/
def Obligations.EmptyPayloadDoesNotDecode : Prop :=
  ∀ (hp : HostParams) (s s' : State) (verify : Bool), ∃ t,
    hostEncode [] s = some (wordText (romRead s.rom 0x00#8), t) ∧
    hostDecode hp (wordText (romRead s.rom 0x00#8)) verify s' = some (.error .tooShort, s')

/-- R11, R118: the source's literal scenario, on every table with the five entries of T_EX. -/
def Obligations.LiteralScenario : Prop :=
  ∀ (hp : HostParams) (s : State) (verify : Bool), TEx s.rom → ∃ t u,
    hostEncode [0x01#8, 0x02#8, 0x03#8, 0x04#8] s = some ("evil-lady-chip-tutu-hull".toList, t) ∧
    hostDecode hp "evil-lady-chip-tutu-hull".toList verify s = some (.ok [0x01#8, 0x02#8, 0x03#8, 0x04#8], u)

/-! ### The assembler -/

/-- R93: but for `.word`, what assembles is legal, and an operand out of range is refused. -/
def Obligations.AssemblerEmitsLegalWords : Prop :=
  (∀ (src : Source) (cs : List Word40), assemble src = .ok cs → (∀ n, src ≠ .word n) →
    ∀ c ∈ cs, LegalCommand c) ∧
  (∀ n : Nat, 256 ≤ n → assemble (.crcbyte n) = .error .outOfRange ∧ assemble (.b2w n) = .error .outOfRange) ∧
  (∀ n : Nat, 2 ^ 32 ≤ n → assemble (.w2b n) = .error .outOfRange) ∧
  ∀ n : Nat, 6 ≤ n → assemble (.rdreg n) = .error .outOfRange

/-- R94: each pseudo-instruction expands to exactly the commands shown, in that order. -/
def Obligations.PseudoInstructionsExpand : Prop :=
  assemble .crcread = .ok [encode (.rdreg 1#8)] ∧ assemble .rdstat = .ok [encode (.rdreg 0#8)] ∧
  ∀ bs : List Byte,
    assemble (.crcbytes (bs.map BitVec.toNat)) = .ok (bs.map fun b => encode (.crcbyte b)) ∧
    assemble (.crcsum (bs.map BitVec.toNat)) =
      .ok (encode .crcinit :: (bs.map fun b => encode (.crcbyte b)) ++ [encode (.rdreg 1#8)])
end

