-- ==== Sys2Proof/Laws/Decode.lean ====
section
/-! SUPPORT. The fields of a 40-bit word and the two ways of widening a byte operand, on which every fact about
decoding and encoding rests. -/

namespace Sys2Proof

theorem word40_toNat (op : Byte) (arg : Word) : (word40 op arg).toNat = op.toNat * 2 ^ 32 + arg.toNat := by
  show (op ++ arg : BitVec (8 + 32)).toNat = _
  rw [BitVec.toNat_append, Nat.shiftLeft_eq, Nat.mul_comm, Nat.two_pow_add_eq_or_of_lt arg.isLt]

theorem opField_toNat (c : Word40) : (opField c).toNat = c.toNat / 2 ^ 32 := by
  have := c.isLt
  simp [opField, BitVec.extractLsb'_toNat, Nat.shiftRight_eq_div_pow]
  omega

theorem argField_toNat (c : Word40) : (argField c).toNat = c.toNat % 2 ^ 32 := by
  simp [argField, BitVec.extractLsb'_toNat]

@[simp] theorem opField_word40 (op : Byte) (arg : Word) : opField (word40 op arg) = op := by
  have := arg.isLt
  rw [← BitVec.toNat_inj, opField_toNat, word40_toNat]
  omega

@[simp] theorem argField_word40 (op : Byte) (arg : Word) : argField (word40 op arg) = arg := by
  have := arg.isLt
  rw [← BitVec.toNat_inj, argField_toNat, word40_toNat]
  omega

theorem word40_fields (c : Word40) : word40 (opField c) (argField c) = c := by
  rw [← BitVec.toNat_inj, word40_toNat, opField_toNat, argField_toNat]
  omega

@[simp] theorem low_byte_of_setWidth (b : Byte) : (b.setWidth 32).extractLsb' 0 8 = b := by
  apply BitVec.eq_of_toNat_eq
  simpa [BitVec.extractLsb'_toNat, BitVec.toNat_setWidth] using b.isLt

@[simp] theorem high_bits_of_setWidth (b : Byte) : (b.setWidth 32).extractLsb' 8 24 = 0#24 := by
  apply BitVec.eq_of_toNat_eq
  have := b.isLt
  rw [BitVec.extractLsb'_toNat, BitVec.toNat_setWidth, Nat.shiftRight_eq_div_pow, BitVec.toNat_ofNat]
  omega

/-- A field whose high bits are zero is its low byte, widened. -/
theorem setWidth_low_byte {arg : Word} (h : arg.extractLsb' 8 24 = 0#24) :
    (arg.extractLsb' 0 8).setWidth 32 = arg := by
  have h' := congrArg BitVec.toNat h
  have := arg.isLt
  apply BitVec.eq_of_toNat_eq
  simp [BitVec.extractLsb'_toNat, Nat.shiftRight_eq_div_pow] at h' ⊢
  omega

theorem high_bits_zero_iff (arg : Word) : arg.extractLsb' 8 24 = 0#24 ↔ arg.toNat < 256 := by
  have := arg.isLt
  rw [← BitVec.toNat_inj]
  simp [BitVec.extractLsb'_toNat, Nat.shiftRight_eq_div_pow]
  omega

end Sys2Proof
end

