-- ==== Sys2Proof/Laws/State.lean ====
section
/-! SUPPORT. One lemma per field per update of the state, so that no later proof unfolds a record update. -/

namespace Sys2Proof.Machine

@[simp] theorem State.respond_acc (st : Status) (d : Word) (s : State) : (s.respond st d).acc = s.acc := rfl
@[simp] theorem State.respond_pos (st : Status) (d : Word) (s : State) : (s.respond st d).pos = s.pos := rfl
@[simp] theorem State.respond_iw (st : Status) (d : Word) (s : State) : (s.respond st d).iw = s.iw := rfl
@[simp] theorem State.respond_ic (st : Status) (d : Word) (s : State) : (s.respond st d).ic = s.ic := rfl
@[simp] theorem State.respond_errWord (st : Status) (d : Word) (s : State) : (s.respond st d).errWord = s.errWord := rfl
@[simp] theorem State.respond_errPos (st : Status) (d : Word) (s : State) : (s.respond st d).errPos = s.errPos := rfl
@[simp] theorem State.respond_rom (st : Status) (d : Word) (s : State) : (s.respond st d).rom = s.rom := rfl
@[simp] theorem State.respond_moves (st : Status) (d : Word) (s : State) : (s.respond st d).moves = s.moves := rfl
@[simp] theorem State.respond_responses (st : Status) (d : Word) (s : State) : (s.respond st d).responses = s.responses ++ [⟨st, d⟩] := rfl

@[simp] theorem State.latchMiss_acc (w p : Word) (s : State) : (s.latchMiss w p).acc = s.acc := rfl
@[simp] theorem State.latchMiss_pos (w p : Word) (s : State) : (s.latchMiss w p).pos = s.pos := rfl
@[simp] theorem State.latchMiss_iw (w p : Word) (s : State) : (s.latchMiss w p).iw = true := rfl
@[simp] theorem State.latchMiss_ic (w p : Word) (s : State) : (s.latchMiss w p).ic = s.ic := rfl
@[simp] theorem State.latchMiss_errWord (w p : Word) (s : State) : (s.latchMiss w p).errWord = if s.iw then s.errWord else w := rfl
@[simp] theorem State.latchMiss_errPos (w p : Word) (s : State) : (s.latchMiss w p).errPos = if s.iw then s.errPos else p := rfl
@[simp] theorem State.latchMiss_rom (w p : Word) (s : State) : (s.latchMiss w p).rom = s.rom := rfl
@[simp] theorem State.latchMiss_moves (w p : Word) (s : State) : (s.latchMiss w p).moves = s.moves := rfl
@[simp] theorem State.latchMiss_responses (w p : Word) (s : State) : (s.latchMiss w p).responses = s.responses := rfl

@[simp] theorem State.clearMiss_acc (s : State) : s.clearMiss.acc = s.acc := rfl
@[simp] theorem State.clearMiss_pos (s : State) : s.clearMiss.pos = s.pos := rfl
@[simp] theorem State.clearMiss_iw (s : State) : s.clearMiss.iw = false := rfl
@[simp] theorem State.clearMiss_ic (s : State) : s.clearMiss.ic = s.ic := rfl
@[simp] theorem State.clearMiss_errWord (s : State) : s.clearMiss.errWord = 0#32 := rfl
@[simp] theorem State.clearMiss_errPos (s : State) : s.clearMiss.errPos = 0#32 := rfl
@[simp] theorem State.clearMiss_rom (s : State) : s.clearMiss.rom = s.rom := rfl
@[simp] theorem State.clearMiss_moves (s : State) : s.clearMiss.moves = s.moves := rfl
@[simp] theorem State.clearMiss_responses (s : State) : s.clearMiss.responses = s.responses := rfl

@[simp] theorem State.setIC_acc (s : State) : s.setIC.acc = s.acc := rfl
@[simp] theorem State.setIC_pos (s : State) : s.setIC.pos = s.pos := rfl
@[simp] theorem State.setIC_iw (s : State) : s.setIC.iw = s.iw := rfl
@[simp] theorem State.setIC_ic (s : State) : s.setIC.ic = true := rfl
@[simp] theorem State.setIC_errWord (s : State) : s.setIC.errWord = s.errWord := rfl
@[simp] theorem State.setIC_errPos (s : State) : s.setIC.errPos = s.errPos := rfl
@[simp] theorem State.setIC_rom (s : State) : s.setIC.rom = s.rom := rfl
@[simp] theorem State.setIC_moves (s : State) : s.setIC.moves = s.moves := rfl
@[simp] theorem State.setIC_responses (s : State) : s.setIC.responses = s.responses := rfl

@[simp] theorem State.resetRegisters_acc (s : State) : s.resetRegisters.acc = 0#8 := rfl
@[simp] theorem State.resetRegisters_pos (s : State) : s.resetRegisters.pos = 0#32 := rfl
@[simp] theorem State.resetRegisters_iw (s : State) : s.resetRegisters.iw = false := rfl
@[simp] theorem State.resetRegisters_ic (s : State) : s.resetRegisters.ic = false := rfl
@[simp] theorem State.resetRegisters_errWord (s : State) : s.resetRegisters.errWord = 0#32 := rfl
@[simp] theorem State.resetRegisters_errPos (s : State) : s.resetRegisters.errPos = 0#32 := rfl
@[simp] theorem State.resetRegisters_rom (s : State) : s.resetRegisters.rom = s.rom := rfl
@[simp] theorem State.resetRegisters_moves (s : State) : s.resetRegisters.moves = s.moves := rfl
@[simp] theorem State.resetRegisters_responses (s : State) : s.resetRegisters.responses = s.responses := rfl

end Sys2Proof.Machine
end

