-- ==== Sys2Proof/Laws/Ops.lean ====
section
/-! SUPPORT. One spec lemma for each shared operation: what raising a fault does, reading the ROM and its reverse
lookup, reading a register. -/

namespace Sys2Proof.Machine

theorem State.raise_invalidWord (w p : Word) (s : State) :
    s.raise (.invalidWord w p) = (s.latchMiss w p).respond .invalidWord p := rfl

theorem State.raise_crcMismatch (a : Byte) (s : State) :
    s.raise (.crcMismatch a) = s.respond .crcMismatch (zext32 a) := rfl

theorem State.raise_illegalCmd (op : Byte) (s : State) :
    s.raise (.illegalCmd op) = s.setIC.respond .illegalCmd (zext32 op) := rfl

/-- Everything raising a fault can do (R200 to R204): one response; ACC, POS, the ROM and the channel's queue stay;
only an illegal command touches IC, only a miss the record. -/
theorem State.raise_spec (c : Cause) (s : State) :
    (∃ r, (s.raise c).responses = s.responses ++ [r]) ∧ (s.raise c).acc = s.acc ∧ (s.raise c).pos = s.pos ∧
      (s.raise c).rom = s.rom ∧ (s.raise c).moves = s.moves ∧
      ((s.raise c).ic = s.ic ∨ ∃ op, c = .illegalCmd op ∧ (s.raise c).ic = true) ∧
      ((∀ w p, c ≠ .invalidWord w p) →
        (s.raise c).iw = s.iw ∧ (s.raise c).errWord = s.errWord ∧ (s.raise c).errPos = s.errPos) := by
  cases c <;> simp [State.raise]

theorem zext32_toNat (b : Byte) : (zext32 b).toNat = b.toNat := by
  simp [zext32, BitVec.toNat_setWidth]; omega

/-- R52: every index has an entry, and `romRead` reads it. -/
theorem getElem?_entries (t : WordTable) (i : Byte) : t.entries[i.toNat]? = some (romRead t i) := by
  have h : i.toNat < t.entries.length := by rw [t.wellFormed.1]; exact i.isLt
  simp [romRead, List.getD_eq_getElem?_getD, List.getElem?_eq_getElem h]

theorem romRead_mem (t : WordTable) (i : Byte) : romRead t i ∈ t.entries :=
  List.mem_of_getElem? (getElem?_entries t i)

/-- R10 (c): every entry is four lowercase letters. -/
theorem lowercaseEntry_of_mem {t : WordTable} {w : Word} (h : w ∈ t.entries) : lowercaseEntry w = true :=
  List.all_eq_true.1 t.wellFormed.2.2 w h

/-- Where an entry stands: the search finds its own index, since no two entries are equal (R10 (b)). -/
theorem idxOf?_of_getElem? {t : WordTable} {i : Nat} {w : Word} (h : t.entries[i]? = some w) :
    t.entries.idxOf? w = some i := by
  obtain ⟨hi, rfl⟩ := List.getElem?_eq_some_iff.1 h
  refine List.findIdx?_eq_some_iff_getElem.2 ⟨hi, by simp, fun j hj he => ?_⟩
  have hnodup := List.pairwise_iff_getElem.1 t.wellFormed.2.1 j i (by omega) hi hj
  exact hnodup (by simpa using he)

theorem rev_of_getElem? {t : WordTable} {i : Nat} {w : Word} (h : t.entries[i]? = some w) :
    rev t w = some (BitVec.ofNat 8 i) := by
  simp [rev, idxOf?_of_getElem? h]

theorem rev_of_notMem {t : WordTable} {w : Word} (h : w ∉ t.entries) : rev t w = none := by
  simp [rev, List.idxOf?_eq_none_iff.2 h]

/-- R28, for the view of the two flags. -/
theorem State.statusView_toNat (s : State) :
    s.statusView.toNat = (if s.ic then 2 else 0) + if s.iw then 1 else 0 := by
  cases hic : s.ic <;> cases hiw : s.iw <;> simp [State.statusView, hic, hiw]

end Sys2Proof.Machine
end

