-- ==== Sys2Proof/Laws/Machine.lean ====
section
/-! SUPPORT. What a command, a host move and a run can do, said once: no step stops, and what every one of them
leaves alone. -/

namespace Sys2Proof.Machine

/-- What every command does, whichever it is: it goes on, it answers once, it keeps the ROM and the queue. -/
structure CommandFrame (s t : State) : Prop where
  answered : ∃ r, t.responses = s.responses ++ [r]
  rom : t.rom = s.rom
  moves : t.moves = s.moves

theorem commandFrame_respond (s u : State) (st : Status) (d : Word) (hr : u.responses = s.responses)
    (hrom : u.rom = s.rom) (hm : u.moves = s.moves) : CommandFrame s (u.respond st d) :=
  ⟨⟨⟨st, d⟩, by simp [hr]⟩, by simp [hrom], by simp [hm]⟩

theorem exec_frame (i : Instr) (s : State) : ∃ t, exec i s = .next t ∧ CommandFrame s t := by
  cases i with
  | crcinit => exact ⟨_, rfl, commandFrame_respond _ _ _ _ rfl rfl rfl⟩
  | crcbyte b => exact ⟨_, rfl, commandFrame_respond _ _ _ _ rfl rfl rfl⟩
  | crcchk =>
    refine ⟨_, rfl, ?_⟩
    split
    · exact commandFrame_respond _ _ _ _ rfl rfl rfl
    · exact commandFrame_respond _ _ _ _ rfl rfl rfl
  | b2w b => exact ⟨_, rfl, commandFrame_respond _ _ _ _ rfl rfl rfl⟩
  | w2b w =>
    refine ⟨_, rfl, ?_⟩
    split
    · exact commandFrame_respond _ _ _ _ rfl rfl rfl
    · exact commandFrame_respond _ _ _ _ rfl rfl rfl
  | w2binit => exact ⟨_, rfl, commandFrame_respond _ _ _ _ rfl rfl rfl⟩
  | rdreg r =>
    refine ⟨_, rfl, ?_⟩
    split
    · exact commandFrame_respond _ _ _ _ rfl rfl rfl
    · exact commandFrame_respond _ _ _ _ rfl rfl rfl

theorem executeWord_of_ok {c : Word40} {i : Instr} (h : decode c = .ok i) (s : State) :
    executeWord c s = exec i s := by
  simp [executeWord, h]

theorem executeWord_of_error {c : Word40} {e : DecodeError} (h : decode c = .error e) (s : State) :
    executeWord c s = .next (s.raise (.illegalCmd (opField c))) := by
  simp [executeWord, h]

theorem executeWord_frame (c : Word40) (s : State) : ∃ t, executeWord c s = .next t ∧ CommandFrame s t := by
  cases h : decode c with
  | ok i => rw [executeWord_of_ok h]; exact exec_frame i s
  | error e =>
    rw [executeWord_of_error h]
    exact ⟨_, rfl, commandFrame_respond _ _ _ _ rfl rfl rfl⟩

/-- Every host move goes on, and keeps the ROM and the queue. -/
theorem perform_next (m : HostMove) (s : State) : ∃ t, perform m s = .next t ∧ t.rom = s.rom ∧ t.moves = s.moves := by
  cases m with
  | command c =>
    obtain ⟨t, ht, hf⟩ := executeWord_frame c s
    exact ⟨t, ht, hf.rom, hf.moves⟩
  | reset => exact ⟨_, rfl, rfl, rfl⟩

theorem performAll_cons {m : HostMove} {s t : State} (h : perform m s = .next t) (ms : List HostMove) :
    performAll (m :: ms) s = performAll ms t := by
  simp [performAll, h]

theorem performAll_append {ms : List HostMove} {s t : State} (h : performAll ms s = .next t) (ns : List HostMove) :
    performAll (ms ++ ns) s = performAll ns t := by
  induction ms generalizing s with
  | nil => cases h; rfl
  | cons m ms ih =>
    obtain ⟨u, hu, -⟩ := perform_next m s
    rw [performAll_cons hu] at h
    rw [List.cons_append, performAll_cons hu, ih h]

theorem runCommands_cons {c : Word40} {s t : State} (h : executeWord c s = .next t) (cs : List Word40) :
    runCommands (c :: cs) s = runCommands cs t :=
  performAll_cons (m := .command c) h (cs.map .command)

/-- No list of moves stops the block, and none changes the ROM or the queue. -/
theorem performAll_next (ms : List HostMove) (s : State) :
    ∃ t, performAll ms s = .next t ∧ t.rom = s.rom ∧ t.moves = s.moves := by
  induction ms generalizing s with
  | nil => exact ⟨s, rfl, rfl, rfl⟩
  | cons m ms ih =>
    obtain ⟨u, hu, hrom, hmoves⟩ := perform_next m s
    obtain ⟨t, ht, hrom', hmoves'⟩ := ih u
    exact ⟨t, by rw [performAll_cons hu, ht], hrom'.trans hrom, hmoves'.trans hmoves⟩

/-- What one step can do: with a move presented, exactly what the block does with that move. -/
theorem step_of_moves {s : State} {m : HostMove} {ms : List HostMove} (h : s.moves = m :: ms) :
    step s = perform m { s with moves := ms } := by
  simp [step, serve, h]

/-- The word placed for the next step is the one it executes. -/
theorem step_withFetchWord (s : State) (nbits w : Nat) :
    step (s.withFetchWord nbits w) = executeWord (tableWord nbits w) s := rfl

/-- A request that executes is answered by the response the block gave. -/
theorem send_eq {c : Word40} {s t : State} {r : Response} (h : executeWord c s = .next t)
    (hr : t.responses = s.responses ++ [r]) : send c s = some (r, t) := by
  simp [send, h, hr]

end Sys2Proof.Machine
end

