-- ==== Sys2Proof/Laws/PerInstr.lean ====
section
/-! SUPPORT. The family `EncodedRow`: the word of every well-formed instruction matches a row of the opcode table that
bears the instruction's mnemonic (30_encoding.md R84, R91). -/

namespace Sys2Proof.Laws.EncodedRow

/-- The word of a well-formed instruction matches a row with its mnemonic. -/
def Statement (i : Instr) : Prop :=
  i.WellFormed = true → ∃ row ∈ opcodeRows, rowMatches row (encode i) = true ∧ row.mnemonic = mnemonic i

theorem rowMatches_iff (row : Row) (c : Word40) : rowMatches row c = true ↔ c &&& row.mask = row.pattern := by
  simp [rowMatches]

theorem crcinit : Statement .crcinit := fun _ =>
  ⟨⟨"CRCINIT", 0x0100000000#40, 0xFFFFFFFFFF#40⟩, by simp [opcodeRows], by decide, rfl⟩

theorem crcbyte (b : Byte) : Statement (.crcbyte b) := fun _ =>
  ⟨⟨"CRCBYTE", 0x0200000000#40, 0xFFFFFFFF00#40⟩, by simp [opcodeRows], by revert b; decide +kernel, rfl⟩

theorem crcchk : Statement .crcchk := fun _ =>
  ⟨⟨"CRCCHK", 0x0300000000#40, 0xFFFFFFFFFF#40⟩, by simp [opcodeRows], by decide, rfl⟩

theorem b2w (b : Byte) : Statement (.b2w b) := fun _ =>
  ⟨⟨"B2W", 0x1000000000#40, 0xFFFFFFFF00#40⟩, by simp [opcodeRows], by revert b; decide +kernel, rfl⟩

theorem w2b (w : Word) : Statement (.w2b w) := fun _ => by
  refine ⟨⟨"W2B", 0x1100000000#40, 0xFF00000000#40⟩, by simp [opcodeRows], ?_, rfl⟩
  rw [rowMatches_iff]
  have hmask : (0xFF00000000#40 : Word40) = (0xFF#8 ++ 0#32 : BitVec (8 + 32)) := by decide
  have hpattern : (0x1100000000#40 : Word40) = (0x11#8 ++ 0#32 : BitVec (8 + 32)) := by decide
  simp only [hmask, hpattern]
  show ((0x11#8 ++ w : BitVec (8 + 32)) &&& (0xFF#8 ++ 0#32 : BitVec (8 + 32))) = _
  rw [BitVec.and_append]
  simp

theorem w2binit : Statement .w2binit := fun _ =>
  ⟨⟨"W2BINIT", 0x1200000000#40, 0xFFFFFFFFFF#40⟩, by simp [opcodeRows], by decide, rfl⟩

theorem rdreg (r : Byte) : Statement (.rdreg r) := by
  revert r
  unfold Statement
  decide +kernel

end Sys2Proof.Laws.EncodedRow
end

