-- ==== Sys2Proof/Tests/Slice0.lean ====
section
/-! SUPPORT. The model's own tests: the spec's words and vectors (95_test_vectors.md, the rules' examples), and a
witness for every statement that has hypotheses. Expected values are the spec's. -/

namespace Sys2Proof.Tests

open Sys2Proof Sys2Proof.Machine

/-! ### Well-formedness -/

/-- The one check of `Instr.WellFormed` refuses a register number beyond 5 (R83). -/
theorem test_wellFormed_refuses_register_6 : (Instr.rdreg 0x06#8).WellFormed = false := by decide

theorem test_wellFormed_accepts_register_5 : (Instr.rdreg 0x05#8).WellFormed = true := by decide

/-- A table with two equal entries is no word table (R10 (b), 93 U1). -/
theorem test_table_with_equal_entries_refused : ¬ TableWellFormed (List.replicate 256 0x61616161#32) := by
  intro h
  exact absurd (List.nodup_replicate.1 h.2.1) (by decide)

/-- Nor is one with an entry that is not four lowercase letters (R10 (c), 93 U2). -/
theorem test_uppercase_entry_refused : lowercaseEntry 0x4556494C#32 = false := by decide

/-- Nor is one of another length (R10 (a)). -/
theorem test_short_table_refused : ¬ TableWellFormed [0x61616161#32] := fun h => absurd h.1 (by decide)

/-- Host whitespace holds neither a lowercase letter nor the delimiter (R8). -/
theorem test_delimiter_is_no_whitespace : wsAllowed ['-'] = false ∧ wsAllowed ['a'] = false := by decide

/-! ### Decoding: one word a command, written out from R82 to R84 -/

theorem test_decode_crcinit : decode 0b0000000100000000000000000000000000000000#40 = .ok .crcinit := by decide

theorem test_decode_crcbyte : decode 0b0000001000000000000000000000000011111111#40 = .ok (.crcbyte 0xFF#8) := by decide

theorem test_decode_crcchk : decode 0b0000001100000000000000000000000000000000#40 = .ok .crcchk := by decide

theorem test_decode_b2w : decode 0b0001000000000000000000000000000011100011#40 = .ok (.b2w 0xE3#8) := by decide

theorem test_decode_w2b :
    decode 0b0001000101100101011101100110100101101100#40 = .ok (.w2b 0x6576696C#32) := by decide

theorem test_decode_w2binit : decode 0b0001001000000000000000000000000000000000#40 = .ok .w2binit := by decide

theorem test_decode_rdreg_first_row :
    decode 0b0010000000000000000000000000000000000011#40 = .ok (.rdreg 0x03#8) := by decide

theorem test_decode_rdreg_second_row :
    decode 0b0010000000000000000000000000000000000101#40 = .ok (.rdreg 0x05#8) := by decide

/-- The illegal rows of 95_test_vectors.md sections 4.4, 5.1 and 5.3. -/
theorem test_illegal_words :
    [0x0100000001#40, 0x0200000100#40, 0x0380000000#40, 0x1000000100#40, 0x12FFFFFFFF#40, 0x2000000006#40,
      0x2000000101#40, 0x0000000000#40, 0x0400000000#40, 0x1300000000#40, 0x2100000000#40, 0xFFFFFFFFFF#40].all
      (fun c => !legal c) = true := by decide

/-- R95: the bytes of a command word, most significant first. -/
theorem test_bytes_of_word : wordBytes 0x0200000001#40 = [0x02#8, 0x00#8, 0x00#8, 0x00#8, 0x01#8] := by decide

theorem test_decode_bytes : decodeBytes [0x10#8, 0x00#8, 0x00#8, 0x00#8, 0xE3#8] = .ok (.b2w 0xE3#8) := by decide

/-! ### Test tables (95_test_vectors.md section 2) -/

/-- T_SYN. -/
def tSyn : WordTable where
  entries := synEntries
  wellFormed := synEntries_wellFormed

/-- Entry `i` of T_EXS. -/
def exsEntry (i : Nat) : Word :=
  if i = 0x01 then 0x6576696C#32
  else if i = 0x02 then 0x6C616479#32
  else if i = 0x03 then 0x63686970#32
  else if i = 0x04 then 0x74757475#32
  else if i = 0xE3 then 0x68756C6C#32
  else synEntry i

/-- The index read back from an entry of T_EXS. -/
def exsIndex (w : Word) : Nat :=
  if w = 0x6576696C#32 then 0x01
  else if w = 0x6C616479#32 then 0x02
  else if w = 0x63686970#32 then 0x03
  else if w = 0x74757475#32 then 0x04
  else if w = 0x68756C6C#32 then 0xE3
  else synIndex w

theorem exsIndex_exsEntry : (List.range 256).all (fun i => exsIndex (exsEntry i) == i) = true := by decide +kernel

/-- T_EXS. -/
def tExs : WordTable where
  entries := (List.range 256).map exsEntry
  wellFormed := by
    refine ⟨by simp, ?_, by decide +kernel⟩
    refine List.Nodup.map_on ?_ List.nodup_range
    intro x hx y hy hxy
    have h := List.all_eq_true.1 exsIndex_exsEntry
    rw [← beq_iff_eq.1 (h x hx), hxy, beq_iff_eq.1 (h y hy)]

/-- A block built with T_EXS, just reset. -/
def exs : State := { State.reset with rom := tExs }

/-- What a test looks at after a step: the six registers and the last response as a word. -/
structure Seen where
  acc : Byte
  pos : Word
  iw : Bool
  ic : Bool
  errWord : Word
  errPos : Word
  response : Option Word40
  deriving DecidableEq, Repr

/-- The registers and the last response after a step. -/
def view : Outcome → Option Seen
  | .next t => some ⟨t.acc, t.pos, t.iw, t.ic, t.errWord, t.errPos, t.responses.getLast?.map responseWord⟩
  | .fault _ => none
  | .refused _ => none

/-! ### The commands (95_test_vectors.md sections 4.4 and 5) -/

theorem test_crcinit_clears :
    view (exec .crcinit { exs with acc := 0xE3#8 }) = some ⟨0x00#8, 0#32, false, false, 0#32, 0#32, some 0#40⟩ := by
  decide +kernel

theorem test_crcbyte_last_of_scenario :
    view (exec (.crcbyte 0x04#8) { exs with acc := 0x48#8 }) =
      some ⟨0xE3#8, 0#32, false, false, 0#32, 0#32, some 0#40⟩ := by decide +kernel

theorem test_crcbyte_all_ones :
    view (exec (.crcbyte 0xFF#8) exs) = some ⟨0xF3#8, 0#32, false, false, 0#32, 0#32, some 0#40⟩ := by decide +kernel

theorem test_crcchk_mismatch :
    view (exec .crcchk { exs with acc := 0xFF#8 }) =
      some ⟨0xFF#8, 0#32, false, false, 0#32, 0#32, some 0x04000000FF#40⟩ := by decide +kernel

theorem test_crcchk_passes :
    view (exec .crcchk exs) = some ⟨0x00#8, 0#32, false, false, 0#32, 0#32, some 0#40⟩ := by decide +kernel

theorem test_b2w_first_index :
    view (exec (.b2w 0x00#8) exs) = some ⟨0x00#8, 0#32, false, false, 0#32, 0#32, some 0x0061616161#40⟩ := by
  decide +kernel

theorem test_b2w_last_index :
    view (exec (.b2w 0xFF#8) exs) = some ⟨0x00#8, 0#32, false, false, 0#32, 0#32, some 0x0070707070#40⟩ := by
  decide +kernel

/-- P4 step 3 and section 5.2 row 9: a hit while IW is 1. -/
theorem test_w2b_hit_after_miss :
    view (exec (.w2b 0x68756C6C#32) { exs with pos := 9#32, iw := true, errWord := 0x61626162#32, errPos := 4#32 }) =
      some ⟨0x00#8, 10#32, true, false, 0x61626162#32, 4#32, some 0x00000000E3#40⟩ := by decide +kernel

/-- P9 step 1: a first miss at the top of POS. -/
theorem test_w2b_miss_wraps :
    view (exec (.w2b 0x4556494C#32) { exs with pos := 0xFFFFFFFF#32 }) =
      some ⟨0x00#8, 0#32, true, false, 0x4556494C#32, 0xFFFFFFFF#32, some 0x03FFFFFFFF#40⟩ := by decide +kernel

theorem test_w2binit_keeps_ic_and_acc :
    view (exec .w2binit
      { exs with acc := 0xE3#8, pos := 2#32, iw := true, ic := true, errWord := 0x4556494C#32, errPos := 1#32 }) =
      some ⟨0xE3#8, 0#32, false, true, 0#32, 0#32, some 0#40⟩ := by decide +kernel

theorem test_rdreg_status :
    view (exec (.rdreg 0x00#8) { exs with ic := true }) =
      some ⟨0x00#8, 0#32, false, true, 0#32, 0#32, some 0x0000000002#40⟩ := by decide +kernel

theorem test_rdreg_poly :
    view (exec (.rdreg 0x05#8) exs) = some ⟨0x00#8, 0#32, false, false, 0#32, 0#32, some 0x0000000007#40⟩ := by
  decide +kernel

/-- P5 step 2: an illegal W2BINIT word clears nothing. -/
theorem test_illegal_word_sets_ic :
    view (step { exs with acc := 0xE3#8, pos := 5#32, moves := [.command 0x12FFFFFFFF#40] }) =
      some ⟨0xE3#8, 5#32, false, true, 0#32, 0#32, some 0x0500000012#40⟩ := by decide +kernel

/-- A reset clears IC too and answers nothing (R230). -/
theorem test_reset_clears_ic :
    view (step { exs with acc := 0xE3#8, ic := true, moves := [.reset] }) =
      some ⟨0x00#8, 0#32, false, false, 0#32, 0#32, none⟩ := by decide +kernel

/-- A word placed for the next step runs as the first command after reset. -/
theorem test_withFetchWord_runs :
    view (step (State.reset.withFetchWord 40 0x0200000001)) =
      some ⟨0x07#8, 0#32, false, false, 0#32, 0#32, some 0#40⟩ := by decide +kernel

theorem test_decodeTableWord : decodeTableWord 40 0x2000000004 = some (.rdreg 0x04#8) := by decide

/-! ### The CRC functions (R111, R117, R129, 95_test_vectors.md sections 3 and 4) -/

theorem test_crcBit :
    [0x00#8, 0x01#8, 0x40#8, 0x7F#8, 0x80#8, 0x81#8, 0xC0#8, 0xFF#8].map crcBit =
      [0x00#8, 0x02#8, 0x80#8, 0xFE#8, 0x07#8, 0x05#8, 0x87#8, 0xF9#8] := by decide

theorem test_crcByte_row_E :
    (List.range 16).map (fun k => crcByte 0x00#8 (BitVec.ofNat 8 (0xE0 + k))) =
      [0xAE#8, 0xA9#8, 0xA0#8, 0xA7#8, 0xB2#8, 0xB5#8, 0xBC#8, 0xBB#8, 0x96#8, 0x91#8, 0x98#8, 0x9F#8, 0x8A#8,
        0x8D#8, 0x84#8, 0x83#8] := by decide +kernel

/-! ### The host (95_test_vectors.md section 7) and the assembler (section 6) -/

/-- A host that trims spaces and splits the trimmed text. -/
def spaces : HostParams where
  ws := [' ']
  wsOk := by decide
  splitTrimmed := true

/-- H22. -/
theorem test_encode_scenario :
    (hostEncode [0x01#8, 0x02#8, 0x03#8, 0x04#8] exs).map Prod.fst = some "evil-lady-chip-tutu-hull".toList := by
  decide +kernel

/-- H7, H8, H9. -/
theorem test_decode_scenario :
    (hostDecode spaces "evil-lady-chip-tutu-hull".toList true exs).map Prod.fst =
        some (.ok [0x01#8, 0x02#8, 0x03#8, 0x04#8]) ∧
      (hostDecode spaces "evil-lady-chip-tutu-evil".toList true exs).map Prod.fst = some (.error .crcMismatch) ∧
      (hostDecode spaces "evil-lady-chip-tutu-evil".toList false exs).map Prod.fst =
        some (.ok [0x01#8, 0x02#8, 0x03#8, 0x04#8]) := by
  decide +kernel

/-- H2, H3, H5, H6, H10, H12, H20. -/
theorem test_decode_failures :
    [("   ", HostError.emptyInput), ("onlyoneword", .tooShort),
        ("notaword-alsoinvalid", .invalidWord "notaword".toList 0), ("evil-EVIL", .invalidWord "EVIL".toList 1),
        ("evil-lady-chip-tutu-hull-", .invalidWord [] 5), ("-", .invalidWord [] 0), ("aaaa", .tooShort)].all
      (fun x => (hostDecode spaces x.1.toList true exs).map Prod.fst == some (.error x.2)) = true := by
  decide +kernel

theorem test_assembler_lines :
    assembleLine "W2B \"hull\" ; a comment".toList = .ok [0x1168756C6C#40] ∧
      assembleLine "CRCSUM 0x01, 0x02".toList =
        .ok [0x0100000000#40, 0x0200000001#40, 0x0200000002#40, 0x2000000001#40] ∧
      assembleLine "RDREG ERRPOS".toList = .ok [0x2000000004#40] ∧
      assembleLine ".word 0x10_80000001".toList = .ok [0x1080000001#40] ∧
      assembleLine "CRCBYTE 256".toList = .error .outOfRange ∧ assembleLine "RDREG 6".toList = .error .outOfRange := by
  decide +kernel

theorem test_word_text : word40Text 0x0200000001#40 = "0x02_00000001".toList := by decide +kernel

/-! ### Witnesses: for every statement with hypotheses, values that meet all of them, each clause at a boundary -/

/-- CrcinitStartsChecksum, third clause: the least operand that is not zero. -/
theorem witness_CrcinitStartsChecksum : (0x00000001#32 : Word) ≠ 0#32 := by decide

/-- CrcbyteFoldsOneByte: the model's own `crc_bit` is such a function, and `0x100` the least illegal operand. -/
theorem witness_CrcbyteFoldsOneByte :
    (∀ a : Byte, crcBit a =
      if a.getLsbD 7 then ((a <<< 1) &&& 0xFF#8) ^^^ 0x07#8 else (a <<< 1) &&& 0xFF#8) ∧
    256 ≤ (0x00000100#32 : Word).toNat := by
  decide +kernel

/-- CrcchkTestsResidue: ACC zero, the smallest and the largest residue, an operand with only bit 31 set. -/
theorem witness_CrcchkTestsResidue :
    exs.acc = 0x00#8 ∧ { exs with acc := 0x01#8 }.acc ≠ 0x00#8 ∧ { exs with acc := 0xFF#8 }.acc ≠ 0x00#8 ∧
      (0x80000000#32 : Word) ≠ 0#32 := by decide +kernel

/-- B2wAnswersEntry, third clause. -/
theorem witness_B2wAnswersEntry : 256 ≤ (0x00000100#32 : Word).toNat ∧ 256 ≤ (0xFFFFFFFF#32 : Word).toNat := by decide

/-- W2bLooksUpWord: the first and the last entry hit; `"abab"` misses in T_EXS with IW 0 and with IW 1; the codes on
both sides of `a` to `z`, in the first and the last character. -/
theorem witness_W2bLooksUpWord :
    exs.rom.entries[0]? = some 0x61616161#32 ∧ exs.rom.entries[255]? = some 0x70707070#32 ∧
      0x61626162#32 ∉ exs.rom.entries ∧ 0x61626162#32 ∉ { exs with iw := true }.rom.entries ∧
      ((0x60616161#32 : Word).extractLsb' (8 * 3) 8).toNat < 0x61 ∧
      0x7A < ((0x6161617B#32 : Word).extractLsb' (8 * 0) 8).toNat := by decide +kernel

/-- W2binitStartsSequence, third clause. -/
theorem witness_W2binitStartsSequence : (0xFFFFFFFF#32 : Word) ≠ 0#32 := by decide

/-- RdregReadsRegister: the last legal number, the first illegal one, and register 1 with a reserved bit set. -/
theorem witness_RdregReadsRegister :
    (0x05#8 : Byte).toNat ≤ 5 ∧ 6 ≤ (0x00000006#32 : Word).toNat ∧ 6 ≤ (0x00000101#32 : Word).toNat := by decide

theorem witness_RdregOfNoRegisterIsIllegal : 6 ≤ (0x06#8 : Byte).toNat ∧ 6 ≤ (0xFF#8 : Byte).toNat := by decide

/-- LegalWordsAreTableRows: the last word of the first RDREG row and the first of the second. -/
theorem witness_LegalWordsAreTableRows :
    rowMatches (opcodeRows.get (6 : Fin 8)) 0x2000000003#40 = true ∧ rowMatches (opcodeRows.get (7 : Fin 8)) 0x2000000004#40 = true ∧
      opcodeRows.get (7 : Fin 8) ∈ opcodeRows ∧ decode 0x2000000004#40 = .ok (.rdreg 0x04#8) := by decide

theorem witness_DecodeOfEncode :
    Instr.crcinit.WellFormed = true ∧ (Instr.crcbyte 0xFF#8).WellFormed = true ∧ Instr.crcchk.WellFormed = true ∧
      (Instr.b2w 0xFF#8).WellFormed = true ∧ (Instr.w2b 0xFFFFFFFF#32).WellFormed = true ∧
      Instr.w2binit.WellFormed = true ∧ (Instr.rdreg 0x05#8).WellFormed = true := by decide

theorem witness_EncodeOfDecode : decode 0x11FFFFFFFF#40 = .ok (.w2b 0xFFFFFFFF#32) := by decide

theorem witness_BytesCarryWords :
    wordOfBytes [0x11#8, 0x65#8, 0x76#8, 0x69#8, 0x6C#8] = some 0x116576696C#40 := by decide

/-- StepRunsDecoded and StepAlwaysAnswers: a command presented, another behind it. -/
theorem witness_StepRunsDecoded :
    { exs with moves := [.command 0x0200000001#40, .reset] }.moves = .command 0x0200000001#40 :: [.reset] ∧
      decode 0x0200000001#40 = .ok (.crcbyte 0x01#8) := by decide +kernel

/-- IllegalWordTakesIllegalCmd: a reserved opcode, a forbidden operand of each format, the word past RDREG's last. -/
theorem witness_IllegalWordTakesIllegalCmd :
    ¬ LegalCommand 0x0000000000#40 ∧ ¬ LegalCommand 0x0100000001#40 ∧ ¬ LegalCommand 0x0200000100#40 ∧
      ¬ LegalCommand 0x2000000006#40 ∧
      { exs with moves := [.command 0x2000000006#40] }.moves = .command 0x2000000006#40 :: [] := by
  refine ⟨?_, ?_, ?_, ?_, rfl⟩ <;> simp [LegalCommand]

theorem witness_StepTakesReset : { exs with moves := [.reset] }.moves = .reset :: [] := rfl

theorem witness_StepWaitsWithoutMove : exs.moves = [] := rfl

/-- StepKeepsMissRecord: from a state that has the invariant, a step that misses. -/
theorem witness_StepKeepsMissRecord :
    MissRecordSound { exs with moves := [.command 0x114556494C#40] } ∧
      (∃ t, step { exs with moves := [.command 0x114556494C#40] } = .next t) ∧
      view (step { exs with moves := [.command 0x114556494C#40] }) =
        some ⟨0x00#8, 1#32, true, false, 0x4556494C#32, 0#32, some 0x0300000000#40⟩ :=
  ⟨⟨fun _ => ⟨rfl, rfl⟩, fun h => absurd h (by decide +kernel)⟩, ⟨_, rfl⟩, by decide +kernel⟩

/-- RomNeverChanges: a step, and a list of moves with a reset in it, that go on. -/
theorem witness_RomNeverChanges :
    (∃ t, step { exs with moves := [.command 0x10000000E3#40] } = .next t) ∧
      ∃ t, performAll [.command 0x0100000000#40, .reset] exs = .next t := ⟨⟨_, rfl⟩, ⟨_, rfl⟩⟩

theorem witness_QueueRunsInOrder : exs.moves = [] := rfl

theorem witness_ReadsAreIdempotent :
    decode 0x10000000E3#40 = .ok (.b2w 0xE3#8) ∧ decode 0x2000000005#40 = .ok (.rdreg 0x05#8) := by decide

theorem witness_LookupsAreInverse : rev tExs 0x70707070#32 = some 0xFF#8 ∧ rev tExs 0x61616161#32 = some 0x00#8 := by
  decide +kernel

/-- EnginesRoundTrip, second clause: the last index. -/
theorem witness_EnginesRoundTrip :
    ∃ t, exec (.w2b 0x70707070#32) exs = .next t ∧ t.responses = exs.responses ++ [⟨.ok, 0x000000FF#32⟩] :=
  ⟨_, rfl, by decide +kernel⟩

theorem witness_BlockStatusCodes :
    (⟨.crcMismatch, 0xFF#32⟩ : Response).status = .crcMismatch ∧
      (⟨.illegalCmd, 0xFF#32⟩ : Response).status = .illegalCmd ∧
      view (executeWord 0x0300000000#40 { exs with acc := 0xFF#8 }) =
        some ⟨0xFF#8, 0#32, false, false, 0#32, 0#32, some 0x04000000FF#40⟩ := by decide +kernel

theorem witness_CrcIsLinear : ([0x01#8, 0x02#8] : List Byte).length = ([0x80#8, 0xFF#8] : List Byte).length := rfl

/-- SingleBitErrorsDetected and CrcchkCatchesSingleBitErrors: the last bit of the checksum byte, and the one-byte
message; the residue is 95_test_vectors.md section 4.3's. -/
theorem witness_SingleBitErrorsDetected :
    4 < ([0x01#8, 0x02#8, 0x03#8, 0x04#8] : List Byte).length + 1 ∧ 7 < 8 ∧ 0 < ([] : List Byte).length + 1 ∧
      crc (flipBit ([0x01#8, 0x02#8, 0x03#8, 0x04#8] ++ [crc [0x01#8, 0x02#8, 0x03#8, 0x04#8]]) 4 7) = 0x89#8 := by
  decide +kernel

/-- CrcIsPolynomialDivision: the sum of the powers is such a reading. -/
theorem witness_CrcIsPolynomialDivision :
    ∃ poly : Byte → Polynomial (ZMod 2), ∀ a, poly a =
      ∑ k ∈ Finset.range 8, if a.getLsbD k then (Polynomial.X : Polynomial (ZMod 2)) ^ k else 0 := ⟨_, fun _ => rfl⟩

/-- ChecksumSequence: a byte with a W2B and an illegal word about it; and the accumulator of the reset state. -/
theorem witness_ChecksumSequence :
    (∀ c ∈ [0x1100000000#40, 0x0200000001#40, 0x0100000001#40], decode? c ≠ some .crcinit) ∧ exs.acc = 0x00#8 := by
  simp only [List.forall_mem_cons, List.not_mem_nil, false_implies, implies_true, and_true]
  decide +kernel

/-- FirstMissDetermines: both cases of its last clause, no miss and a miss (95_test_vectors.md section 5.2). -/
theorem witness_FirstMissDetermines :
    exs.pos = 0#32 ∧ exs.iw = false ∧ exs.errWord = 0#32 ∧ exs.errPos = 0#32 ∧
      (∀ c ∈ [0x116576696C#40, 0x0100000000#40, 0x1161626162#40], decode? c ≠ some .w2binit) ∧
      (w2bOperands [0x116576696C#40, 0x0100000000#40, 0x1161626162#40]).findIdx?
        (fun w => !(exs.rom.entries.contains w)) = some 1 ∧
      (w2bOperands [0x116576696C#40]).findIdx? (fun w => !(exs.rom.entries.contains w)) = none := by
  simp only [List.forall_mem_cons, List.not_mem_nil, false_implies, implies_true, and_true]
  decide +kernel

theorem witness_MissingW2binitKeepsRecord : { exs with iw := true }.iw = true := rfl

theorem witness_BytesAndWordsRoundTrip : ∀ w ∈ [0x61616161#32, 0x70707070#32], w ∈ exs.rom.entries := by
  simp only [List.forall_mem_cons, List.not_mem_nil, false_implies, implies_true, and_true]
  decide +kernel

theorem witness_WordsToBytesReportsFirstMiss :
    (∀ v ∈ [0x6576696C#32], v ∈ exs.rom.entries) ∧ 0x4556494C#32 ∉ exs.rom.entries ∧
      ([0x6576696C#32] : List Word).length < 2 ^ 32 := by
  simp only [List.forall_mem_cons, List.not_mem_nil, false_implies, implies_true, and_true]
  decide +kernel

theorem witness_DecodeOfEncodedPayload :
    ([0x00#8] : List Byte) ≠ [] ∧ { exs with acc := 0xFF#8 }.rom = exs.rom ∧ spaces.splitTrimmed = true :=
  ⟨by decide, rfl, rfl⟩

/-- DecodeResultInOrder: H1, H3, H6, H15, one text for each clause; the last with the shortest decodable message. -/
theorem witness_DecodeResultInOrder :
    trim spaces.ws [] = [] ∧
      (trim spaces.ws "onlyoneword".toList ≠ [] ∧ (splitTokens spaces "onlyoneword".toList).length < 2) ∧
      (trim spaces.ws "evil-EVIL".toList ≠ [] ∧ 2 ≤ (splitTokens spaces "evil-EVIL".toList).length ∧
        (splitTokens spaces "evil-EVIL".toList).findIdx? (badToken exs.rom) = some 1 ∧
        (splitTokens spaces "evil-EVIL".toList)[1]? = some "EVIL".toList) ∧
      (trim spaces.ws "evil-ahah".toList ≠ [] ∧ 2 ≤ (splitTokens spaces "evil-ahah".toList).length ∧
        (splitTokens spaces "evil-ahah".toList).length ≤ 2 ^ 32 ∧
        (splitTokens spaces "evil-ahah".toList).findIdx? (badToken exs.rom) = none) := by
  decide +kernel

/-- TolerantDecode: a decode without verification that ends (H14), and one with it that fails on the checksum (H13). -/
theorem witness_TolerantDecode :
    (hostDecode spaces "evil-evil".toList false exs).map Prod.fst = some (.ok [0x01#8]) ∧
      (hostDecode spaces "evil-evil".toList true exs).map Prod.fst = some (.error .crcMismatch) := by
  decide +kernel

theorem witness_LiteralScenario : TEx exs.rom := by
  refine ⟨?_, ?_, ?_, ?_, ?_⟩ <;> decide +kernel

/-- AssemblerEmitsLegalWords: a line that assembles, and the least number out of range for each operand. -/
theorem witness_AssemblerEmitsLegalWords :
    assemble (.rdreg 5) = .ok [0x2000000005#40] ∧ Source.rdreg 5 ≠ .word 0 ∧ 0x2000000005#40 ∈ [0x2000000005#40] ∧
      256 ≤ 256 ∧ 2 ^ 32 ≤ 0x100000000 ∧ 6 ≤ 6 := by decide

end Sys2Proof.Tests
end

section
/-! SUPPORT. One command and its response, as the host sees them: each instruction's word decodes to it, and the host
gets the response the command's rule gives, with the state it leaves. -/

namespace Sys2Proof

/-- R83 to R86: the decoder reads back every well-formed instruction. -/
theorem decode_encode {i : Instr} (h : i.WellFormed = true) : decode (encode i) = .ok i := by
  cases i with
  | crcinit | crcchk | w2binit => rfl
  | crcbyte b | b2w b => simp [decode, encode, formatB]
  | w2b w => simp [decode, encode]
  | rdreg r =>
    have hr : r.toNat ≤ 5 := of_decide_eq_true h
    simp [decode, encode, formatB, registerOperand, hr]

end Sys2Proof

namespace Sys2Proof.Machine

/-- A well-formed instruction's request is answered by the response its meaning gives (R61, R171 (a)). -/
theorem request_of_exec {i : Instr} {s u : State} {st : Status} {d : Word} (hi : i.WellFormed = true)
    (h : exec i s = .next (u.respond st d)) (hr : u.responses = s.responses) :
    request i s = some (⟨st, d⟩, u.respond st d) :=
  send_eq (by rw [executeWord_of_ok (decode_encode hi), h]) (by rw [State.respond_responses, hr])

theorem requestOk_of_exec {i : Instr} {s u : State} {d : Word} (hi : i.WellFormed = true)
    (h : exec i s = .next (u.respond .ok d)) (hr : u.responses = s.responses) :
    requestOk i s = some (d, u.respond .ok d) := by
  simp [requestOk, request_of_exec hi h hr]

@[simp] theorem requestOk_crcinit (s : State) :
    requestOk .crcinit s = some (0#32, State.respond .ok 0#32 { s with acc := Config.crcInit }) :=
  requestOk_of_exec rfl rfl rfl

@[simp] theorem requestOk_crcbyte (b : Byte) (s : State) :
    requestOk (.crcbyte b) s = some (0#32, State.respond .ok 0#32 { s with acc := crcByte s.acc b }) :=
  requestOk_of_exec rfl rfl rfl

@[simp] theorem requestOk_b2w (b : Byte) (s : State) :
    requestOk (.b2w b) s = some (romRead s.rom b, s.respond .ok (romRead s.rom b)) :=
  requestOk_of_exec rfl rfl rfl

@[simp] theorem requestOk_w2binit (s : State) :
    requestOk .w2binit s = some (0#32, State.respond .ok 0#32 { s.clearMiss with pos := 0#32 }) :=
  requestOk_of_exec rfl rfl rfl

@[simp] theorem requestOk_rdreg_acc (s : State) :
    requestOk (.rdreg (regNumber .acc)) s = some (zext32 s.acc, s.respond .ok (zext32 s.acc)) :=
  requestOk_of_exec rfl rfl rfl

theorem request_crcchk_of_acc_zero {s : State} (h : s.acc = 0#8) :
    request .crcchk s = some (⟨.ok, 0#32⟩, s.respond .ok 0#32) :=
  request_of_exec rfl (by simp [exec, execCrcchk, h]) rfl

/-- R143, the hit. -/
theorem request_w2b_of_rev {s : State} {w : Word} {i : Byte} (h : rev s.rom w = some i) :
    request (.w2b w) s =
      some (⟨.ok, zext32 i⟩, State.respond .ok (zext32 i) { s with pos := s.pos + 1#32 }) :=
  request_of_exec rfl (by simp [exec, execW2b, h]) rfl

@[simp] theorem dataByte_zext32 (b : Byte) : dataByte (zext32 b) = b := low_byte_of_setWidth b

/-- R57: the reverse lookup of an entry is its index. -/
@[simp] theorem rev_romRead (t : WordTable) (b : Byte) : rev t (romRead t b) = some b := by
  rw [rev_of_getElem? (getElem?_entries t b), BitVec.ofNat_toNat, BitVec.setWidth_eq]

end Sys2Proof.Machine
end

section
/-! SUPPORT. The text format: what joins from table entries splits and packs back to them, and trimming leaves it
alone, whatever the host's parameters. -/

namespace Sys2Proof.Machine

@[simp] theorem toNat_charOfByte (b : Byte) : (Char.ofNat b.toNat).toNat = b.toNat := by
  have hvalid : b.toNat.isValidChar := .inl (by omega)
  rw [Char.toNat_ofNat, if_pos hvalid]

@[simp] theorem charCode_charOfByte (b : Byte) : charCode (Char.ofNat b.toNat) = some b := by
  rw [charCode, toNat_charOfByte, if_pos b.isLt, BitVec.ofNat_toNat, BitVec.setWidth_eq]

theorem packWord_codes (w : Word) :
    packWord (w.extractLsb' 24 8) (w.extractLsb' 16 8) (w.extractLsb' 8 8) (w.extractLsb' 0 8) = w := by
  rw [packWord, BitVec.extractLsb'_append_extractLsb'_eq_extractLsb' (by rfl),
    BitVec.extractLsb'_append_extractLsb'_eq_extractLsb' (by rfl),
    BitVec.extractLsb'_append_extractLsb'_eq_extractLsb' (by rfl), BitVec.extractLsb'_eq_self]

/-- R53, R174: the text of a word packs to the word. -/
@[simp] theorem packToken_wordText (w : Word) : packToken (wordText w) = some w := by
  simp only [wordText, wordCodes, List.map_cons, List.map_nil, packToken, charCode_charOfByte, packWord_codes]

/-- The characters of the text of entries: the letters that R8 keeps out of `HOST_WS`. -/
theorem lowercase_of_mem_wordText {t : WordTable} {w : Word} (hw : w ∈ t.entries) {c : Char}
    (hc : c ∈ wordText w) : 0x61 ≤ c.toNat ∧ c.toNat ≤ 0x7A := by
  have hcodes : ∀ b ∈ wordCodes w, lowercaseCode b = true := by
    simpa [wordCodes, lowercaseEntry, and_assoc] using lowercaseEntry_of_mem hw
  obtain ⟨b, hb, rfl⟩ := List.mem_map.1 hc
  simpa [lowercaseCode] using hcodes b hb

theorem mem_joinWords {ws : List Word} {c : Char} (h : c ∈ joinWords ws) :
    c = Config.delim ∨ ∃ w ∈ ws, c ∈ wordText w := by
  induction ws with
  | nil => simp [joinWords] at h
  | cons w ws ih =>
    cases ws with
    | nil => exact .inr ⟨w, by simp, by simpa [joinWords] using h⟩
    | cons v vs =>
      have h' : c ∈ wordText w ∨ c = Config.delim ∨ c ∈ joinWords (v :: vs) := by
        simpa [joinWords, List.intercalate_cons_cons] using h
      obtain hc | hc | hc := h'
      · exact .inr ⟨w, by simp, hc⟩
      · exact .inl hc
      · exact (ih hc).imp_right fun ⟨x, hx, hcx⟩ => ⟨x, List.mem_cons_of_mem _ hx, hcx⟩

theorem joinWords_ne_nil {ws : List Word} (h : ws ≠ []) : joinWords ws ≠ [] := by
  match ws, h with
  | [w], _ => simp [joinWords, wordText, wordCodes]
  | w :: v :: vs, _ => simp [joinWords, List.intercalate_cons_cons]

/-- R8's assumption on `HOST_WS`. -/
theorem notMem_hostWs (hp : HostParams) {c : Char}
    (h : c = Config.delim ∨ 0x61 ≤ c.toNat ∧ c.toNat ≤ 0x7A) : c ∉ hp.ws := by
  intro hc
  have hok := List.all_eq_true.1 hp.wsOk c hc
  simp only [Bool.and_eq_true, Bool.not_eq_true', Bool.and_eq_false_iff, decide_eq_false_iff_not,
    bne_iff_ne, ne_eq] at hok
  obtain ⟨hletter, hdelim⟩ := hok
  obtain rfl | hlower := h
  · exact hdelim rfl
  · omega

theorem trim_of_notMem {ws : List Char} {t : Text} (h : ∀ c ∈ t, c ∉ ws) : trim ws t = t := by
  have hkeep : ∀ u : Text, (∀ c ∈ u, c ∉ ws) → u.dropWhile (fun c => ws.contains c) = u := by
    intro u hu
    rw [List.dropWhile_eq_self_iff]
    intro hlen
    simpa using hu _ (List.getElem_mem hlen)
  rw [trim, hkeep t h, hkeep t.reverse (by simpa using h), List.reverse_reverse]

section
variable {t : WordTable} {ws : List Word} (hws : ∀ w ∈ ws, w ∈ t.entries)
include hws

/-- R8, R181: trimming does nothing to the text of entries. -/
theorem trim_joinWords (hp : HostParams) : trim hp.ws (joinWords ws) = joinWords ws := by
  refine trim_of_notMem fun c hc => notMem_hostWs hp ?_
  exact (mem_joinWords hc).imp_right fun ⟨w, hw, hcw⟩ => lowercase_of_mem_wordText (hws w hw) hcw

/-- R174, R179 step 2: the text of entries splits into their texts. -/
theorem splitTokens_joinWords (hp : HostParams) (hne : ws ≠ []) :
    splitTokens hp (joinWords ws) = ws.map wordText := by
  have hdelim : ∀ tok ∈ ws.map wordText, Config.delim ∉ tok := by
    intro tok htok hc
    obtain ⟨w, hw, rfl⟩ := List.mem_map.1 htok
    exact absurd (lowercase_of_mem_wordText (hws w hw) hc).1 (by decide)
  rw [splitTokens, trim_joinWords hws hp, ite_self, joinWords]
  exact List.splitOn_intercalate _ hdelim (by simpa using hne)

end

end Sys2Proof.Machine
end

section
/-! SUPPORT. The host's loops and its two operations, run from every state: `encode` (R178), and `decode` of a text
of entries whose checksum is right (R179). -/

namespace Sys2Proof.Machine

/-- Feeding the unit runs `crc_byte` over the bytes from the accumulator on (R113, R121). -/
theorem feedCrc_eq (bs : List Byte) (s : State) :
    feedCrc bs s = some { s with
      acc := bs.foldl crcByte s.acc
      responses := s.responses ++ bs.map fun _ => ⟨.ok, 0#32⟩ } := by
  induction bs generalizing s with
  | nil => simp [feedCrc]
  | cons b bs ih => simp [feedCrc, ih, State.respond]

/-- R175. -/
theorem bytesToWords_eq (bs : List Byte) (s : State) :
    bytesToWords bs s = some (bs.map (romRead s.rom),
      { s with responses := s.responses ++ bs.map fun b => ⟨.ok, romRead s.rom b⟩ }) := by
  induction bs generalizing s with
  | nil => simp [bytesToWords]
  | cons b bs ih => simp [bytesToWords, ih, State.respond]

/-- R178: the text is the payload's entries and the checksum's; of the registers only ACC changes. -/
theorem hostEncode_eq (p : List Byte) (s : State) : ∃ t,
    hostEncode p s = some (joinWords ((p ++ [crc p]).map (romRead s.rom)), t) ∧
      t = { s with acc := crc p, responses := t.responses } := by
  have hcrc : p.foldl crcByte Config.crcInit = crc p := rfl
  simp [hostEncode, encodeWords, feedCrc_eq, bytesToWords_eq, hcrc, State.respond]

/-- R179 step 4, when every token is an entry's text: the tokens' indices, in order. -/
theorem convertTokens_entries {t : WordTable} (bs : List Byte) (k : Nat) {s : State} (hrom : s.rom = t) :
    convertTokens ((bs.map (romRead t)).map wordText) k s = some (.ok bs,
      { s with
        pos := s.pos + BitVec.ofNat 32 bs.length
        responses := s.responses ++ bs.map fun b => ⟨.ok, zext32 b⟩ }) := by
  induction bs generalizing k s with
  | nil => simp [convertTokens]
  | cons b bs ih =>
    have hpos : s.pos + 1#32 + BitVec.ofNat 32 bs.length = s.pos + BitVec.ofNat 32 (bs.length + 1) := by
      rw [BitVec.ofNat_add, BitVec.add_assoc, BitVec.add_comm 1#32]
    have hhit : rev s.rom (romRead t b) = some b := by rw [hrom, rev_romRead]
    rw [List.map_cons, List.map_cons, convertTokens, packToken_wordText]
    simp [request_w2b_of_rev hhit, ih (k + 1), hrom, hpos, Except.map, State.respond, -List.map_map]

/-- R124: a payload followed by its checksum leaves the zero residue. -/
theorem crc_append_crc (p : List Byte) : crc (p ++ [crc p]) = 0#8 := by
  have hlast : crc (p ++ [crc p]) = crcByte (crc p) (crc p) := by simp [crc, crcOver, crcByte]
  rw [hlast, crcByte, crcByteOver, BitVec.xor_self]
  exact Function.iterate_fixed (by decide) 8

/-- R179 step 5 on bytes with the zero residue: no mismatch. -/
theorem verifyBytes_of_crc_zero {bs : List Byte} (h : crc bs = 0#8) (s : State) :
    ∃ t, verifyBytes bs s = some (false, t) := by
  have hfold : bs.foldl crcByte Config.crcInit = 0#8 := h
  simp [verifyBytes, feedCrc_eq, hfold, request_crcchk_of_acc_zero]

/-- R185's decoding half: the message of a nonempty payload decodes to it. -/
theorem hostDecode_message (hp : HostParams) (verify : Bool) (s : State) {p : List Byte} (hne : p ≠ []) :
    ∃ t, hostDecode hp (joinWords ((p ++ [crc p]).map (romRead s.rom))) verify s = some (.ok p, t) := by
  have hentries : ∀ w ∈ (p ++ [crc p]).map (romRead s.rom), w ∈ s.rom.entries := by
    intro w hw
    obtain ⟨b, -, rfl⟩ := List.mem_map.1 hw
    exact romRead_mem s.rom b
  have hsome : (p ++ [crc p]).map (romRead s.rom) ≠ [] := by simp
  have hlong : ¬ (((p ++ [crc p]).map (romRead s.rom)).map wordText).length < 2 := by
    have := List.length_pos_iff.2 hne
    simp only [List.length_map, List.length_append, List.length_singleton]
    omega
  have hconvert := convertTokens_entries (t := s.rom) (p ++ [crc p]) 0
    (s := State.respond .ok 0#32 { s.clearMiss with pos := 0#32 }) rfl
  rw [hostDecode, trim_joinWords hentries, splitTokens_joinWords hentries hp hsome,
    if_neg (joinWords_ne_nil hsome), if_neg hlong, requestOk_w2binit]
  simp only [hconvert, List.dropLast_concat]
  cases verify with
  | false => exact ⟨_, rfl⟩
  | true =>
    obtain ⟨t, ht⟩ := verifyBytes_of_crc_zero (crc_append_crc p) _
    exact ⟨t, by rw [if_pos rfl, ht]; rfl⟩

end Sys2Proof.Machine
end

section
/-! The statements of 00_scope.md. -/

open Sys2Proof Sys2Proof.Machine

/-- R118. -/
theorem crc_literalScenario : crc [0x01#8, 0x02#8, 0x03#8, 0x04#8] = 0xE3#8 := by decide +kernel

/-- R11, R174: the message the scenario's payload has on a table with the five entries. -/
theorem joinWords_literalScenario {t : WordTable} (h : TEx t) :
    joinWords (([0x01#8, 0x02#8, 0x03#8, 0x04#8] ++ [crc [0x01#8, 0x02#8, 0x03#8, 0x04#8]]).map (romRead t)) =
      "evil-lady-chip-tutu-hull".toList := by
  obtain ⟨h1, h2, h3, h4, hsum⟩ := h
  rw [crc_literalScenario]
  simp only [List.cons_append, List.nil_append, List.map_cons, List.map_nil, h1, h2, h3, h4, hsum]
  decide +kernel

/-- Settles O56: the message of `01 02 03 04` is the source's text, and a message decodes to its payload. -/
theorem literalScenario : Obligations.LiteralScenario := by
  intro hp s verify hex
  obtain ⟨t, hencode, -⟩ := hostEncode_eq [0x01#8, 0x02#8, 0x03#8, 0x04#8] s
  obtain ⟨u, hdecode⟩ := hostDecode_message hp verify s (p := [0x01#8, 0x02#8, 0x03#8, 0x04#8]) (by simp)
  rw [joinWords_literalScenario hex] at hencode hdecode
  exact ⟨t, u, hencode, hdecode⟩
end

section
/-! SUPPORT. Decoding and legality: the seven ways a word decodes (30_encoding.md R84, R91), and that a word decodes
exactly when R86 calls it legal. -/

namespace Sys2Proof

theorem formatN_eq_ok {op : Byte} {arg : Word} {i j : Instr} :
    formatN op arg j = .ok i ↔ arg = 0#32 ∧ i = j := by
  unfold formatN
  split <;> simp [*, eq_comm]

theorem formatB_eq_ok {op : Byte} {arg : Word} {k : Byte → Except DecodeError Instr} {i : Instr} :
    formatB op arg k = .ok i ↔ arg.extractLsb' 8 24 = 0#24 ∧ k (arg.extractLsb' 0 8) = .ok i := by
  unfold formatB
  split <;> simp [*]

theorem registerOperand_eq_ok {r : Byte} {i : Instr} :
    registerOperand r = .ok i ↔ r.toNat ≤ 5 ∧ i = .rdreg r := by
  unfold registerOperand
  split <;> simp [*, eq_comm]

/-- R84, R91: what the decoder accepts, a row for each command. -/
theorem decode_eq_ok_iff {c : Word40} {i : Instr} : decode c = .ok i ↔
    (opField c = 0x01#8 ∧ argField c = 0#32 ∧ i = .crcinit) ∨
    (opField c = 0x02#8 ∧ (argField c).extractLsb' 8 24 = 0#24 ∧ i = .crcbyte ((argField c).extractLsb' 0 8)) ∨
    (opField c = 0x03#8 ∧ argField c = 0#32 ∧ i = .crcchk) ∨
    (opField c = 0x10#8 ∧ (argField c).extractLsb' 8 24 = 0#24 ∧ i = .b2w ((argField c).extractLsb' 0 8)) ∨
    (opField c = 0x11#8 ∧ i = .w2b (argField c)) ∨
    (opField c = 0x12#8 ∧ argField c = 0#32 ∧ i = .w2binit) ∨
    (opField c = 0x20#8 ∧ (argField c).extractLsb' 8 24 = 0#24 ∧
      ((argField c).extractLsb' 0 8).toNat ≤ 5 ∧ i = .rdreg ((argField c).extractLsb' 0 8)) := by
  unfold decode
  dsimp only
  split_ifs with h1 h2 h3 h4 h5 h6 h7
  · simp [h1, formatN_eq_ok]
  · simp [h2, formatB_eq_ok, eq_comm (b := i)]
  · simp [h3, formatN_eq_ok]
  · simp [h4, formatB_eq_ok, eq_comm (b := i)]
  · simp [h5, eq_comm (b := i)]
  · simp [h6, formatN_eq_ok]
  · simp [h7, formatB_eq_ok, registerOperand_eq_ok]
  · simp [h1, h2, h3, h4, h5, h6, h7]

/-- R83: only well-formed instructions come out of the decoder. -/
theorem wellFormed_of_decode {c : Word40} {i : Instr} (h : decode c = .ok i) : i.WellFormed = true := by
  obtain ⟨-, -, rfl⟩ | ⟨-, -, rfl⟩ | ⟨-, -, rfl⟩ | ⟨-, -, rfl⟩ | ⟨-, rfl⟩ | ⟨-, -, rfl⟩ | ⟨-, -, hr, rfl⟩ :=
    decode_eq_ok_iff.1 h
  exacts [rfl, rfl, rfl, rfl, rfl, rfl, decide_eq_true hr]

/-- R86's table on the fields the decoder reads. -/
theorem legalCommand_iff (c : Word40) : LegalCommand c ↔
    ((opField c = 0x01#8 ∨ opField c = 0x03#8 ∨ opField c = 0x12#8) ∧ argField c = 0#32) ∨
    ((opField c = 0x02#8 ∨ opField c = 0x10#8) ∧ (argField c).extractLsb' 8 24 = 0#24) ∨
    (opField c = 0x20#8 ∧ (argField c).extractLsb' 8 24 = 0#24 ∧ ((argField c).extractLsb' 0 8).toNat ≤ 5) ∨
    opField c = 0x11#8 := by
  have hop (op : Byte) : opField c = op ↔ c.toNat / 2 ^ 32 = op.toNat := by
    rw [← BitVec.toNat_inj, opField_toNat]
  have harg : argField c = 0#32 ↔ c.toNat % 2 ^ 32 = 0 := by
    rw [← BitVec.toNat_inj, argField_toNat, BitVec.toNat_ofNat, Nat.zero_mod]
  have hhigh : (argField c).extractLsb' 8 24 = 0#24 ↔ c.toNat % 2 ^ 32 / 2 ^ 8 = 0 := by
    rw [high_bits_zero_iff, argField_toNat]
    omega
  have hlow : ((argField c).extractLsb' 0 8).toNat = c.toNat % 2 ^ 32 % 2 ^ 8 := by
    rw [BitVec.extractLsb'_toNat, argField_toNat, Nat.shiftRight_zero]
  simp only [hop, harg, hhigh, hlow]
  rfl

/-- R86, R91: the decoder accepts exactly the legal words. -/
theorem decode_ok_iff_legalCommand (c : Word40) : (∃ i, decode c = .ok i) ↔ LegalCommand c := by
  simp only [decode_eq_ok_iff, legalCommand_iff, exists_or, exists_and_left, exists_eq, and_true]
  tauto

end Sys2Proof
end

section
/-! SUPPORT. An outcome that goes on, a register number that names a register, a step that waits. -/

namespace Sys2Proof.Machine

@[simp] theorem nextWith_next {t : State} {p : State → Prop} : NextWith (.next t) p ↔ p t := by
  simp [NextWith]

/-- R28: a legal register number names a register. -/
theorem regOfNumber_of_le {r : Byte} (h : r.toNat ≤ 5) : ∃ g, regOfNumber r = some g := by
  unfold regOfNumber
  generalize r.toNat = n at h
  interval_cases n <;> exact ⟨_, rfl⟩

/-- R216, R233: with nothing presented the block waits. -/
theorem step_of_moves_nil {s : State} (h : s.moves = []) : step s = .next s := by
  simp [step, serve, h]

end Sys2Proof.Machine
end

section
/-! SUPPORT. The record of misses (10_state.md R23, R25): what keeps its invariant, and that every command, every word,
every move and every step does. -/

namespace Sys2Proof

open Sys2Proof.Machine

theorem MissRecordSound.of_clear {s : Machine.State} (hiw : s.iw = false) (hword : s.errWord = 0#32)
    (hpos : s.errPos = 0#32) : MissRecordSound s :=
  ⟨fun _ => ⟨hword, hpos⟩, fun h => absurd (hiw.symm.trans h) Bool.false_ne_true⟩

/-- The invariant speaks of the record and the ROM alone. -/
theorem MissRecordSound.congr {s t : Machine.State} (h : MissRecordSound s) (hrom : t.rom = s.rom) (hiw : t.iw = s.iw)
    (hword : t.errWord = s.errWord) (hpos : t.errPos = s.errPos) : MissRecordSound t := by
  unfold MissRecordSound
  rwa [hrom, hiw, hword, hpos]

/-- R23: the word a miss records is the old one or the one that missed; neither is an entry. -/
theorem MissRecordSound.latchMiss {s : Machine.State} (h : MissRecordSound s) {w : Word} (hmiss : rev s.rom w = none)
    (p : Word) : MissRecordSound (s.latchMiss w p) := by
  refine ⟨fun hiw => absurd hiw (by simp), fun _ => ?_⟩
  rw [State.latchMiss_rom, State.latchMiss_errWord]
  split
  case isTrue hiw => exact h.2 hiw
  case isFalse => exact hmiss

end Sys2Proof

namespace Sys2Proof.Machine

/-- R143, R145: only a W2B miss and W2BINIT write the record, and each leaves it sound. -/
theorem exec_missRecordSound (i : Instr) {s : State} (h : MissRecordSound s) :
    NextWith (exec i s) MissRecordSound := by
  cases i with
  | crcinit | crcbyte b | b2w b => exact ⟨_, rfl, h.congr rfl rfl rfl rfl⟩
  | crcchk =>
    refine ⟨_, rfl, ?_⟩
    split <;> exact h.congr rfl rfl rfl rfl
  | w2b w =>
    refine ⟨_, rfl, ?_⟩
    split
    case h_1 => exact h.congr rfl rfl rfl rfl
    case h_2 hmiss => exact (h.latchMiss hmiss s.pos).congr rfl rfl rfl rfl
  | w2binit => exact ⟨_, rfl, .of_clear rfl rfl rfl⟩
  | rdreg r =>
    refine ⟨_, rfl, ?_⟩
    split <;> exact h.congr rfl rfl rfl rfl

theorem executeWord_missRecordSound (c : Word40) {s : State} (h : MissRecordSound s) :
    NextWith (executeWord c s) MissRecordSound := by
  cases hc : decode c with
  | ok i => rw [executeWord_of_ok hc]; exact exec_missRecordSound i h
  | error e => rw [executeWord_of_error hc]; exact ⟨_, rfl, h.congr rfl rfl rfl rfl⟩

theorem perform_missRecordSound (m : HostMove) {s : State} (h : MissRecordSound s) :
    NextWith (perform m s) MissRecordSound := by
  cases m with
  | command c => exact executeWord_missRecordSound c h
  | reset => exact ⟨_, rfl, .of_clear rfl rfl rfl⟩

theorem step_missRecordSound {s : State} (h : MissRecordSound s) : NextWith (step s) MissRecordSound := by
  cases hm : s.moves with
  | nil => rw [step_of_moves_nil hm]; exact ⟨s, rfl, h⟩
  | cons m ms =>
    rw [step_of_moves hm]
    exact perform_missRecordSound m (h.congr rfl rfl rfl rfl)

end Sys2Proof.Machine
end

section
/-! SUPPORT. The flag IC (10_state.md R26): what a command, a word and a run leave in it. -/

namespace Sys2Proof.Machine

/-- R27: no well-formed command writes IC. -/
theorem exec_ic {i : Instr} (hi : i.WellFormed = true) (s : State) : NextWith (exec i s) (·.ic = s.ic) := by
  cases i with
  | crcinit | crcbyte b | b2w b | w2binit => exact ⟨_, rfl, rfl⟩
  | crcchk =>
    refine ⟨_, rfl, ?_⟩
    split <;> rfl
  | w2b w =>
    refine ⟨_, rfl, ?_⟩
    split <;> rfl
  | rdreg r =>
    obtain ⟨g, hg⟩ := regOfNumber_of_le (of_decide_eq_true hi)
    exact ⟨s.respond .ok (s.readReg g), by simp [exec, execRdreg, hg], rfl⟩

/-- R26: a word sets IC exactly when it is illegal. -/
theorem executeWord_ic (c : Word40) (s : State) :
    NextWith (executeWord c s) fun t => t.ic = true ↔ s.ic = true ∨ ¬ LegalCommand c := by
  rw [← decode_ok_iff_legalCommand]
  cases hc : decode c with
  | ok i =>
    obtain ⟨t, ht, hic⟩ := exec_ic (wellFormed_of_decode hc) s
    exact ⟨t, by rw [executeWord_of_ok hc, ht], by simp [hic]⟩
  | error e => exact ⟨_, executeWord_of_error hc s, by simp [State.raise_illegalCmd]⟩

theorem runCommands_ic (cs : List Word40) (s : State) :
    NextWith (runCommands cs s) fun t => t.ic = true ↔ s.ic = true ∨ ∃ c ∈ cs, ¬ LegalCommand c := by
  induction cs generalizing s with
  | nil => exact ⟨s, rfl, by simp⟩
  | cons c cs ih =>
    obtain ⟨u, hu, hword⟩ := executeWord_ic c s
    obtain ⟨t, ht, hrest⟩ := ih u
    refine ⟨t, by rw [runCommands_cons hu, ht], hrest.trans ?_⟩
    rw [hword, List.exists_mem_cons_iff, or_assoc]

end Sys2Proof.Machine
end

section
/-! The statements of 10_state.md. -/

open Sys2Proof Sys2Proof.Machine

/-- Settles O22, by cases on the move the step takes: the record stays, is cleared, or takes a word that missed. -/
theorem stepKeepsMissRecord : Obligations.StepKeepsMissRecord := by
  intro s t h ht
  have hstep := step_missRecordSound h
  rwa [ht, nextWith_next] at hstep

/-- Settles O25, by induction on the list of words. -/
theorem illegalFlagIsSticky : Obligations.IllegalFlagIsSticky := runCommands_ic

/-- Settles O20: every register has the value R35 gives it. -/
theorem resetState : Obligations.ResetState := ⟨rfl, rfl, rfl, rfl, rfl, rfl, rfl, rfl⟩

/-- Settles O23: after reset the record is clear. -/
theorem resetHasMissRecord : Obligations.ResetHasMissRecord := .of_clear rfl rfl rfl
end

section
/-! SUPPORT. The two lookups (20_memory.md R56, R57): what the reverse lookup finds, and the table that holds the
entries of another in the reverse order. -/

namespace Sys2Proof.Machine

/-- R56: the reverse lookup finds exactly the entries. -/
theorem rev_eq_some_iff (t : WordTable) (w : Word) (i : Byte) : rev t w = some i ↔ t.entries[i.toNat]? = some w := by
  constructor
  · intro hrev
    by_cases hw : w ∈ t.entries
    · obtain ⟨n, hn⟩ := List.mem_iff_getElem?.1 hw
      have hlt : n < 2 ^ 8 := (List.getElem?_eq_some_iff.1 hn).1.trans_eq t.wellFormed.1
      rw [rev_of_getElem? hn, Option.some.injEq] at hrev
      rw [← hrev, BitVec.toNat_ofNat, Nat.mod_eq_of_lt hlt, hn]
    · rw [rev_of_notMem hw] at hrev
      cases hrev
  · intro hi
    rw [rev_of_getElem? hi, BitVec.ofNat_toNat, BitVec.setWidth_eq]

theorem romRead_of_rev {t : WordTable} {w : Word} {i : Byte} (h : rev t w = some i) : romRead t i = w := by
  rw [rev_eq_some_iff, getElem?_entries] at h
  exact Option.some.inj h

/-- R10 asks nothing of the order of the entries. -/
def reverseTable (t : WordTable) : WordTable where
  entries := t.entries.reverse
  wellFormed := by
    obtain ⟨hlength, hnodup, hletters⟩ := t.wellFormed
    exact ⟨by rw [List.length_reverse, hlength], List.nodup_reverse.2 hnodup, by rw [List.all_reverse, hletters]⟩

/-- The first entry of a table is the last of its reverse. -/
theorem rev_reverseTable_first (t : WordTable) : rev (reverseTable t) (romRead t 0x00#8) = some 0xFF#8 := by
  have hlength : t.entries.length = 256 := t.wellFormed.1
  rw [rev_eq_some_iff, ← getElem?_entries t 0x00#8]
  show t.entries.reverse[255]? = t.entries[0]?
  rw [List.getElem?_reverse (by omega), hlength]

end Sys2Proof.Machine
end

section
/-! SUPPORT. The order of commands (20_memory.md R60, R61): runs compose, each command adds one response, and neither
the queue nor the responses given earlier reach what a move does. -/

namespace Sys2Proof.Machine

/-- R51: no step changes the ROM. -/
theorem step_rom (s : State) : NextWith (step s) (·.rom = s.rom) := by
  cases hm : s.moves with
  | nil => exact ⟨s, step_of_moves_nil hm, rfl⟩
  | cons m ms =>
    obtain ⟨t, ht, hrom, -⟩ := perform_next m { s with moves := ms }
    exact ⟨t, by rw [step_of_moves hm, ht], hrom⟩

theorem runCommands_append {cs : List Word40} {s t : State} (h : runCommands cs s = .next t) (ds : List Word40) :
    runCommands (cs ++ ds) s = runCommands ds t := by
  rw [runCommands, List.map_append, performAll_append h, runCommands]

/-- R61: `n` commands add `n` responses behind those already given. -/
theorem runCommands_responses (cs : List Word40) (s : State) :
    NextWith (runCommands cs s) fun t => ∃ rs, rs.length = cs.length ∧ t.responses = s.responses ++ rs := by
  induction cs generalizing s with
  | nil => exact ⟨s, rfl, [], rfl, by simp⟩
  | cons c cs ih =>
    obtain ⟨u, hu, hframe⟩ := executeWord_frame c s
    obtain ⟨r, hr⟩ := hframe.answered
    obtain ⟨t, ht, rs, hlength, hrs⟩ := ih u
    exact ⟨t, by rw [runCommands_cons hu, ht], r :: rs, by simp [hlength], by simp [hrs, hr]⟩

/-- The same block on other channels: another queue, and other responses given before its own. -/
def State.onChannels (ms : List HostMove) (rs : List Response) (s : State) : State :=
  { s with moves := ms, responses := rs ++ s.responses }

section
variable (ms : List HostMove) (rs : List Response)

theorem State.respond_onChannels {u v : State} (h : v = u.onChannels ms rs) (st : Status) (d : Word) :
    v.respond st d = (u.respond st d).onChannels ms rs := by
  simp [h, State.respond, State.onChannels]

theorem State.raise_onChannels {u v : State} (h : v = u.onChannels ms rs) (c : Cause) :
    v.raise c = (u.raise c).onChannels ms rs := by
  subst h
  cases c with
  | invalidWord w p => exact State.respond_onChannels ms rs (u := u.latchMiss w p) rfl ..
  | crcMismatch a => exact State.respond_onChannels ms rs rfl ..
  | illegalCmd op => exact State.respond_onChannels ms rs (u := u.setIC) rfl ..

/-- A command neither reads nor writes what stands on the channels: it answers behind it. -/
theorem exec_onChannels (i : Instr) (s : State) :
    NextWith (exec i s) fun t => exec i (s.onChannels ms rs) = .next (t.onChannels ms rs) := by
  cases i with
  | crcinit | crcbyte b | b2w b | w2binit =>
    exact ⟨_, rfl, congrArg Host.Outcome.next (State.respond_onChannels ms rs (by rfl) _ _)⟩
  | crcchk =>
    refine ⟨_, rfl, congrArg Host.Outcome.next ?_⟩
    change (if s.acc = 0#8 then _ else _) = _
    split
    · exact State.respond_onChannels ms rs rfl _ _
    · exact State.raise_onChannels ms rs rfl _
  | w2b w =>
    refine ⟨_, rfl, congrArg Host.Outcome.next ?_⟩
    change (match rev s.rom w with | some i => _ | none => _) = _
    cases rev s.rom w with
    | some i => exact State.respond_onChannels ms rs (by rfl) _ _
    | none => exact State.raise_onChannels ms rs (by rfl) _
  | rdreg r =>
    refine ⟨_, rfl, congrArg Host.Outcome.next ?_⟩
    split
    case h_1 g _ => cases g <;> exact State.respond_onChannels ms rs rfl _ _
    case h_2 => exact State.raise_onChannels ms rs rfl _

theorem executeWord_onChannels (c : Word40) (s : State) :
    NextWith (executeWord c s) fun t => executeWord c (s.onChannels ms rs) = .next (t.onChannels ms rs) := by
  cases hc : decode c with
  | ok i =>
    simp only [executeWord_of_ok hc]
    exact exec_onChannels ms rs i s
  | error e =>
    simp only [executeWord_of_error hc]
    exact ⟨_, rfl, congrArg Host.Outcome.next (State.raise_onChannels ms rs rfl _)⟩

theorem perform_onChannels (m : HostMove) (s : State) :
    NextWith (perform m s) fun t => perform m (s.onChannels ms rs) = .next (t.onChannels ms rs) := by
  cases m with
  | command c => exact executeWord_onChannels ms rs c s
  | reset => exact ⟨_, rfl, rfl⟩

end

theorem run_succ_of_step {M : Host.Core} {s t : M.State} (h : M.step s = .next t) (k : Nat) :
    M.run (k + 1) s = M.run k t := by
  simp [Host.Core.run, h]

/-- R60: stepping once for each queued move performs them in order, and empties the queue. -/
theorem run_queue (ms : List HostMove) (s : State) :
    NextWith (performAll ms s) fun t =>
      Host.Core.run Sys2Proof.core ms.length { s with moves := ms } = .next { t with moves := [] } := by
  induction ms generalizing s with
  | nil => exact ⟨s, rfl, rfl⟩
  | cons m ms ih =>
    obtain ⟨u, hu, hqueued⟩ := perform_onChannels ms [] m s
    obtain ⟨t, ht, hrest⟩ := ih u
    have hstep : Sys2Proof.core.step { s with moves := m :: ms } = .next { u with moves := ms } := hqueued
    exact ⟨t, by rw [performAll_cons hu, ht], (run_succ_of_step hstep ms.length).trans hrest⟩

end Sys2Proof.Machine
end

section
/-! SUPPORT. The two reads B2W and RDREG (20_memory.md R59). -/

namespace Sys2Proof.Machine

theorem State.readReg_respond (g : Reg) (st : Status) (d : Word) (s : State) :
    (s.respond st d).readReg g = s.readReg g := by
  cases g <;> rfl

/-- R140, R160: a read answers OK with a value that no response changes, and does nothing else. -/
theorem executeWord_read {c : Word40} {i : Instr} (hc : decode c = .ok i)
    (hread : (∃ b, i = .b2w b) ∨ ∃ r, i = .rdreg r) :
    ∃ value : State → Word, (∀ s, executeWord c s = .next (s.respond .ok (value s))) ∧
      ∀ s st d, value (s.respond st d) = value s := by
  obtain ⟨b, rfl⟩ | ⟨r, rfl⟩ := hread
  · exact ⟨fun s => romRead s.rom b, executeWord_of_ok hc, fun _ _ _ => rfl⟩
  · obtain ⟨g, hg⟩ := regOfNumber_of_le (of_decide_eq_true (wellFormed_of_decode hc))
    refine ⟨State.readReg g, fun s => ?_, fun s st d => State.readReg_respond g st d s⟩
    rw [executeWord_of_ok hc]
    simp [exec, execRdreg, hg]

end Sys2Proof.Machine
end

section
/-! The statements of 20_memory.md. -/

open Sys2Proof Sys2Proof.Machine

/-- Settles O24: a step and a list of moves leave the whole table as it is. -/
theorem romNeverChanges : Obligations.RomNeverChanges := by
  refine ⟨fun s t ht i => ?_, fun ms s t ht => ?_⟩
  · have hrom := step_rom s
    rw [ht, nextWith_next] at hrom
    rw [hrom]
  · obtain ⟨u, hu, hrom, -⟩ := performAll_next ms s
    cases ht.symm.trans hu
    exact hrom

/-- Settles O26, by induction on the queue: the rest of it does not reach what a move does. -/
theorem queueRunsInOrder : Obligations.QueueRunsInOrder := by
  intro ms s hempty
  obtain ⟨t, ht, hrun⟩ := run_queue ms s
  obtain ⟨t', ht', -, hmoves⟩ := performAll_next ms s
  cases ht.symm.trans ht'
  rw [hrun, ht, ← hmoves.trans hempty]
  rfl

/-- Settles O27: runs compose, and each adds its own responses behind those already given. -/
theorem runsComposeInOrder : Obligations.RunsComposeInOrder := by
  intro cs ds s
  obtain ⟨t, ht, rs, hlength, hrs⟩ := runCommands_responses cs s
  obtain ⟨u, hu, rs', -, hrs'⟩ := runCommands_responses ds t
  exact ⟨t, u, ht, hu, by rw [runCommands_append ht, hu], by rw [hrs, List.length_append, hlength],
    ⟨rs, hrs.symm⟩, ⟨rs', hrs'.symm⟩⟩

/-- Settles O29: the second read finds the value the first found. -/
theorem readsAreIdempotent : Obligations.ReadsAreIdempotent := by
  intro s c i hc hread
  obtain ⟨value, hvalue, hkept⟩ := executeWord_read hc hread
  refine ⟨⟨.ok, value s⟩, ?_⟩
  rw [runCommands_cons (hvalue s), runCommands_cons (hvalue _), hkept]
  simp [runCommands, performAll, State.respond]

/-- Settles O30: no two entries are equal (R10 (b)), so the search finds an entry's own index. -/
theorem lookupsAreInverse : Obligations.LookupsAreInverse :=
  ⟨rev_eq_some_iff, rev_romRead, fun _ _ _ => romRead_of_rev⟩

/-- Settles O32: two blocks just reset, one with the table and one with its reverse; the word of byte 0 on the first
is read as 255 on the second. -/
theorem tableMismatchIsSilent : Obligations.TableMismatchIsSilent := by
  refine ⟨State.reset, { State.reset with rom := reverseTable State.reset.rom }, 0x00#8, 0xFF#8,
    romRead State.reset.rom 0x00#8, _, _, by decide, rfl, rfl, rfl, ?_⟩
  rw [rev_reverseTable_first]
  rfl
end

section
/-! SUPPORT. The words of the well-formed instructions are exactly the legal words (30_encoding.md R84 to R86), and how
many there are (R91). -/

namespace Sys2Proof

theorem word40_of_fields {c : Word40} {op : Byte} {arg : Word} (hop : opField c = op) (harg : argField c = arg) :
    word40 op arg = c := by
  rw [← hop, ← harg, word40_fields]

/-- R84, R85: the decoder ignores no bit of a word. -/
theorem encode_of_decode {c : Word40} {i : Instr} (h : decode c = .ok i) : encode i = c := by
  obtain ⟨hop, harg, rfl⟩ | ⟨hop, hhigh, rfl⟩ | ⟨hop, harg, rfl⟩ | ⟨hop, hhigh, rfl⟩ | ⟨hop, rfl⟩ | ⟨hop, harg, rfl⟩ |
    ⟨hop, hhigh, -, rfl⟩ := decode_eq_ok_iff.1 h
  · exact word40_of_fields hop harg
  · exact word40_of_fields hop (setWidth_low_byte hhigh).symm
  · exact word40_of_fields hop harg
  · exact word40_of_fields hop (setWidth_low_byte hhigh).symm
  · exact word40_of_fields hop rfl
  · exact word40_of_fields hop harg
  · exact word40_of_fields hop (setWidth_low_byte hhigh).symm

theorem legal_iff_decode_ok (c : Word40) : legal c = true ↔ ∃ i, decode c = .ok i := by
  unfold legal decode?
  split <;> simp [*]

theorem legalCommand_encode {i : Instr} (h : i.WellFormed = true) : LegalCommand (encode i) :=
  (decode_ok_iff_legalCommand _).1 ⟨i, decode_encode h⟩

/-- The encoder is a bijection from the well-formed instructions to the legal words. -/
theorem card_legal :
    Nat.card { c : Word40 // legal c = true } = Nat.card { i : Instr // i.WellFormed = true } := by
  refine (Nat.card_eq_of_bijective
    (fun i => ⟨encode i.1, (legal_iff_decode_ok _).2 ⟨i.1, decode_encode i.2⟩⟩) ⟨?injective, ?surjective⟩).symm
  case injective =>
    intro i j hij
    have hword : encode i.1 = encode j.1 := congrArg Subtype.val hij
    have hdecode := decode_encode i.2
    rw [hword, decode_encode j.2, Except.ok.injEq] at hdecode
    exact Subtype.ext hdecode.symm
  case surjective =>
    rintro ⟨c, hc⟩
    obtain ⟨i, hi⟩ := (legal_iff_decode_ok c).1 hc
    exact ⟨⟨i, wellFormed_of_decode hi⟩, Subtype.ext (encode_of_decode hi)⟩

/-- The operands R86 allows each of the seven commands, in the order of R84. -/
abbrev LegalOperands : Type := Unit ⊕ Byte ⊕ Unit ⊕ Byte ⊕ Word ⊕ Unit ⊕ { r : Byte // r.toNat ≤ 5 }

/-- A well-formed instruction is one of the seven commands with an operand it allows. -/
def wellFormedEquivOperands : { i : Instr // i.WellFormed = true } ≃ LegalOperands where
  toFun
    | ⟨.crcinit, _⟩ => .inl ()
    | ⟨.crcbyte b, _⟩ => .inr (.inl b)
    | ⟨.crcchk, _⟩ => .inr (.inr (.inl ()))
    | ⟨.b2w b, _⟩ => .inr (.inr (.inr (.inl b)))
    | ⟨.w2b w, _⟩ => .inr (.inr (.inr (.inr (.inl w))))
    | ⟨.w2binit, _⟩ => .inr (.inr (.inr (.inr (.inr (.inl ())))))
    | ⟨.rdreg r, h⟩ => .inr (.inr (.inr (.inr (.inr (.inr ⟨r, of_decide_eq_true h⟩)))))
  invFun
    | .inl () => ⟨.crcinit, rfl⟩
    | .inr (.inl b) => ⟨.crcbyte b, rfl⟩
    | .inr (.inr (.inl ())) => ⟨.crcchk, rfl⟩
    | .inr (.inr (.inr (.inl b))) => ⟨.b2w b, rfl⟩
    | .inr (.inr (.inr (.inr (.inl w)))) => ⟨.w2b w, rfl⟩
    | .inr (.inr (.inr (.inr (.inr (.inl ()))))) => ⟨.w2binit, rfl⟩
    | .inr (.inr (.inr (.inr (.inr (.inr r))))) => ⟨.rdreg r.1, decide_eq_true r.2⟩
  left_inv := by rintro ⟨i, hi⟩; cases i <;> rfl
  right_inv := by rintro (_ | _ | _ | _ | _ | _ | _) <;> rfl

theorem natCard_bitVec (w : Nat) : Nat.card (BitVec w) = 2 ^ w := by
  rw [Nat.card_eq_fintype_card, ← FinEnum.card_eq_fintypeCard, FinEnum.card_bitVec]

theorem natCard_registerNumbers : Nat.card { r : Byte // r.toNat ≤ 5 } = 6 := by
  rw [Nat.card_eq_fintype_card]
  decide +kernel

/-- R91's count: three commands without an operand, two of a byte, one of a 32-bit word, six register numbers. -/
theorem natCard_legalOperands : Nat.card LegalOperands = 2 ^ 32 + 521 := by
  simp only [Nat.card_sum, Nat.card_unique, natCard_bitVec, natCard_registerNumbers]
  norm_num

end Sys2Proof
end

section
/-! SUPPORT. The rows of the opcode table (30_encoding.md R91): a word that decodes matches a row, a word that matches
a row decodes to the row's command, and no word matches two rows. -/

namespace Sys2Proof

open Sys2Proof.Laws

/-- The family `EncodedRow`, for every instruction. -/
theorem encodedRow_statement (i : Instr) : EncodedRow.Statement i := by
  cases i with
  | crcinit => exact EncodedRow.crcinit
  | crcbyte b => exact EncodedRow.crcbyte b
  | crcchk => exact EncodedRow.crcchk
  | b2w b => exact EncodedRow.b2w b
  | w2b w => exact EncodedRow.w2b w
  | w2binit => exact EncodedRow.w2binit
  | rdreg r => exact EncodedRow.rdreg r

theorem exists_row_of_decode {c : Word40} {i : Instr} (h : decode c = .ok i) :
    ∃ row ∈ opcodeRows, rowMatches row c = true := by
  obtain ⟨row, hrow, hmatch, -⟩ := encodedRow_statement i (wellFormed_of_decode h)
  exact ⟨row, hrow, by rwa [encode_of_decode h] at hmatch⟩

/-- A row tests each field of the word under that field of its mask. -/
theorem fields_of_rowMatches {row : Row} {c : Word40} (h : rowMatches row c = true) :
    opField c &&& opField row.mask = opField row.pattern ∧
    (argField c).extractLsb' 8 24 &&& (argField row.mask).extractLsb' 8 24 =
      (argField row.pattern).extractLsb' 8 24 ∧
    (argField c).extractLsb' 0 8 &&& (argField row.mask).extractLsb' 0 8 =
      (argField row.pattern).extractLsb' 0 8 := by
  rw [EncodedRow.rowMatches_iff] at h
  simp only [← h, opField, argField, BitVec.extractLsb'_and, and_self]

/-- A field that a row tests in every bit is the pattern's. -/
theorem eq_of_full_mask {w : Nat} {x mask pattern : BitVec w} (h : x &&& mask = pattern)
    (hmask : mask = BitVec.allOnes w) : x = pattern := by
  rw [← h, hmask, BitVec.and_allOnes]

theorem argField_eq_zero {c : Word40} (hhigh : (argField c).extractLsb' 8 24 = 0#24)
    (hlow : (argField c).extractLsb' 0 8 = 0#8) : argField c = 0#32 := by
  rw [← setWidth_low_byte hhigh, hlow, BitVec.setWidth_zero]

/-- R91: the two RDREG rows hold the register numbers 0 to 3, and 4 and 5. -/
theorem registerNumber_of_masked (r : Byte) : r &&& 0xFC#8 = 0x00#8 ∨ r &&& 0xFE#8 = 0x04#8 → r.toNat ≤ 5 := by
  revert r
  decide +kernel

/-- R86, R91: each row, read as the condition of its command. -/
theorem decode_of_rowMatches {row : Row} {c : Word40} (hrow : row ∈ opcodeRows) (h : rowMatches row c = true) :
    ∃ i, decode c = .ok i ∧ mnemonic i = row.mnemonic := by
  obtain ⟨hop, hhigh, hlow⟩ := fields_of_rowMatches h
  have hopMask : ∀ row ∈ opcodeRows, opField row.mask = BitVec.allOnes 8 := by decide
  replace hop := eq_of_full_mask hop (hopMask row hrow)
  simp only [decode_eq_ok_iff]
  simp only [opcodeRows, List.mem_cons, List.not_mem_nil, or_false] at hrow
  obtain rfl | rfl | rfl | rfl | rfl | rfl | rfl | rfl := hrow
  · exact ⟨.crcinit, .inl
      ⟨hop, argField_eq_zero (eq_of_full_mask hhigh rfl) (eq_of_full_mask hlow rfl), rfl⟩, rfl⟩
  · exact ⟨_, .inr (.inl ⟨hop, eq_of_full_mask hhigh rfl, rfl⟩), rfl⟩
  · exact ⟨.crcchk, .inr (.inr (.inl
      ⟨hop, argField_eq_zero (eq_of_full_mask hhigh rfl) (eq_of_full_mask hlow rfl), rfl⟩)), rfl⟩
  · exact ⟨_, .inr (.inr (.inr (.inl ⟨hop, eq_of_full_mask hhigh rfl, rfl⟩))), rfl⟩
  · exact ⟨_, .inr (.inr (.inr (.inr (.inl ⟨hop, rfl⟩)))), rfl⟩
  · exact ⟨.w2binit, .inr (.inr (.inr (.inr (.inr (.inl
      ⟨hop, argField_eq_zero (eq_of_full_mask hhigh rfl) (eq_of_full_mask hlow rfl), rfl⟩))))), rfl⟩
  · exact ⟨_, .inr (.inr (.inr (.inr (.inr (.inr
      ⟨hop, eq_of_full_mask hhigh rfl, registerNumber_of_masked _ (.inl hlow), rfl⟩))))), rfl⟩
  · exact ⟨_, .inr (.inr (.inr (.inr (.inr (.inr
      ⟨hop, eq_of_full_mask hhigh rfl, registerNumber_of_masked _ (.inr hlow), rfl⟩))))), rfl⟩

/-- The patterns of two rows that match one word agree where both rows test. -/
theorem patterns_agree {row row' : Row} {c : Word40} (h : rowMatches row c = true) (h' : rowMatches row' c = true) :
    row.pattern &&& row'.mask = row'.pattern &&& row.mask := by
  rw [EncodedRow.rowMatches_iff] at h h'
  rw [← h, ← h', BitVec.and_assoc, BitVec.and_assoc, BitVec.and_comm row.mask]

/-- R91: any two of the eight rows differ in a bit that both test. -/
theorem eq_of_patterns_agree (j k : Fin 8) : (opcodeRows.get j).pattern &&& (opcodeRows.get k).mask =
    (opcodeRows.get k).pattern &&& (opcodeRows.get j).mask → j = k := by
  revert j k
  decide

end Sys2Proof
end

section
/-! SUPPORT. A 40-bit word as five bytes (30_encoding.md R95). -/

namespace Sys2Proof

theorem wordOfBytes_wordBytes (c : Word40) : wordOfBytes (wordBytes c) = some c := by
  rw [wordBytes, wordOfBytes, BitVec.extractLsb'_append_extractLsb'_eq_extractLsb' (by rfl),
    BitVec.extractLsb'_append_extractLsb'_eq_extractLsb' (by rfl),
    BitVec.extractLsb'_append_extractLsb'_eq_extractLsb' (by rfl),
    BitVec.extractLsb'_append_extractLsb'_eq_extractLsb' (by rfl), BitVec.extractLsb'_eq_self]

theorem decodeBytes_wordBytes (c : Word40) : decodeBytes (wordBytes c) = decode c := by
  rw [decodeBytes, wordOfBytes_wordBytes]

theorem extract_appended_byte {w : Nat} (x : BitVec w) (b : Byte) : (x ++ b).extractLsb' 0 8 = b := by
  rw [BitVec.extractLsb'_append_eq_of_add_le (by simp), BitVec.extractLsb'_eq_self]

theorem extract_above_appended_byte {w : Nat} (x : BitVec w) (b : Byte) (k : Nat) :
    (x ++ b).extractLsb' (k + 8) 8 = x.extractLsb' k 8 := by
  rw [BitVec.extractLsb'_append_eq_of_le (by simp), Nat.add_sub_cancel]

theorem wordBytes_append (b0 b1 b2 b3 b4 : Byte) :
    wordBytes (b0 ++ b1 ++ b2 ++ b3 ++ b4) = [b0, b1, b2, b3, b4] := by
  have above4 := extract_above_appended_byte (b0 ++ b1 ++ b2 ++ b3) b4
  have above3 := extract_above_appended_byte (b0 ++ b1 ++ b2) b3
  have above2 := extract_above_appended_byte (b0 ++ b1) b2
  have above1 := extract_above_appended_byte b0 b1 0
  simp only [wordBytes, List.cons.injEq, and_true]
  exact ⟨(above4 24).trans <| (above3 16).trans <| (above2 8).trans <| above1.trans BitVec.extractLsb'_eq_self,
    (above4 16).trans <| (above3 8).trans <| (above2 0).trans <| extract_appended_byte b0 b1,
    (above4 8).trans <| (above3 0).trans <| extract_appended_byte (b0 ++ b1) b2,
    (above4 0).trans <| extract_appended_byte (b0 ++ b1 ++ b2) b3,
    extract_appended_byte (b0 ++ b1 ++ b2 ++ b3) b4⟩

theorem wordBytes_of_wordOfBytes {bs : List Byte} {c : Word40} (h : wordOfBytes bs = some c) : wordBytes c = bs := by
  match bs, h with
  | [b0, b1, b2, b3, b4], h => rw [← Option.some.inj h, wordBytes_append]

/-- Byte `k` is bits `39 - 8k` to `32 - 8k`. -/
theorem wordBytes_getElem? (c : Word40) {k : Nat} (hk : k < 5) :
    (wordBytes c)[k]? = some (BitVec.ofNat 8 (c.toNat / 2 ^ (8 * (4 - k)))) := by
  rw [← Nat.shiftRight_eq_div_pow]
  interval_cases k <;> rfl

end Sys2Proof
end

section
/-! SUPPORT. The responses of the block (30_encoding.md R88, R89, 60_exceptions.md R200): the fields of a response's
word, and what a command can answer. -/

namespace Sys2Proof.Machine

/-- R88: bits 39:32. -/
theorem responseWord_status (r : Response) : (responseWord r).toNat / 2 ^ 32 = (statusCode r.status).toNat := by
  rw [← opField_toNat, responseWord, ← word40, opField_word40]

/-- R88: bits 31:0. -/
theorem responseWord_data (r : Response) : (responseWord r).toNat % 2 ^ 32 = r.data.toNat := by
  rw [← argField_toNat, responseWord, ← word40, argField_word40]

/-- R89: the statuses that are not the host's alone. -/
def blockStatuses : List Status := [.ok, .invalidWord, .crcMismatch, .illegalCmd]

theorem statusCode_of_blockStatus :
    ∀ st ∈ blockStatuses, (statusCode st).toNat ∈ [0, 3, 4, 5] := by decide

/-- What the block's responses keep to (R89, R203, R204): one of its statuses, and nothing above the byte that
CRC_MISMATCH and ILLEGAL_CMD carry. -/
structure BlockResponse (r : Response) : Prop where
  status : r.status ∈ blockStatuses
  data : r.status = .crcMismatch ∨ r.status = .illegalCmd → r.data.toNat < 256

theorem BlockResponse.ok (d : Word) : BlockResponse ⟨.ok, d⟩ := ⟨by simp [blockStatuses], by simp⟩

theorem BlockResponse.invalidWord (p : Word) : BlockResponse ⟨.invalidWord, p⟩ := ⟨by simp [blockStatuses], by simp⟩

theorem BlockResponse.of_byte {st : Status} (h : st ∈ blockStatuses) (b : Byte) : BlockResponse ⟨st, zext32 b⟩ :=
  ⟨h, fun _ => (zext32_toNat b).trans_lt b.isLt⟩

/-- One response is added, and it is one the block gives. -/
def AddsBlockResponse (s t : State) : Prop := ∃ r, t.responses = s.responses ++ [r] ∧ BlockResponse r

theorem addsBlockResponse_ok {s u : State} (d : Word) (hr : u.responses = s.responses) :
    AddsBlockResponse s (u.respond .ok d) :=
  ⟨⟨.ok, d⟩, by rw [State.respond_responses, hr], .ok d⟩

theorem addsBlockResponse_raise {s u : State} (c : Cause) (hr : u.responses = s.responses) :
    AddsBlockResponse s (u.raise c) := by
  rw [AddsBlockResponse, ← hr]
  cases c with
  | invalidWord w p => exact ⟨_, rfl, .invalidWord p⟩
  | crcMismatch a => exact ⟨_, rfl, .of_byte (by decide) a⟩
  | illegalCmd op => exact ⟨_, rfl, .of_byte (by decide) op⟩

/-- Every command answers OK or raises one of the three faults. -/
theorem exec_addsBlockResponse (i : Instr) (s : State) : NextWith (exec i s) (AddsBlockResponse s) := by
  cases i with
  | crcinit | crcbyte b | b2w b | w2binit => exact ⟨_, rfl, addsBlockResponse_ok _ rfl⟩
  | crcchk =>
    refine ⟨_, rfl, ?_⟩
    split
    · exact addsBlockResponse_ok _ rfl
    · exact addsBlockResponse_raise _ rfl
  | w2b w =>
    refine ⟨_, rfl, ?_⟩
    split
    · exact addsBlockResponse_ok _ rfl
    · exact addsBlockResponse_raise _ rfl
  | rdreg r =>
    refine ⟨_, rfl, ?_⟩
    split
    · exact addsBlockResponse_ok _ rfl
    · exact addsBlockResponse_raise _ rfl

theorem executeWord_addsBlockResponse (c : Word40) (s : State) :
    NextWith (executeWord c s) (AddsBlockResponse s) := by
  cases hc : decode c with
  | ok i => rw [executeWord_of_ok hc]; exact exec_addsBlockResponse i s
  | error e => rw [executeWord_of_error hc]; exact ⟨_, rfl, addsBlockResponse_raise _ rfl⟩

end Sys2Proof.Machine
end

section
/-! SUPPORT. The assembler (30_encoding.md R93, R94): the operands it refuses, the words it emits, the expansion of
CRCBYTES. -/

namespace Sys2Proof.Machine

@[simp] theorem byteOperand_toNat (b : Byte) : byteOperand b.toNat = .ok b := by
  rw [byteOperand, if_pos b.isLt, BitVec.ofNat_toNat, BitVec.setWidth_eq]

theorem byteOperand_of_ge {n : Nat} (h : 2 ^ 8 ≤ n) : byteOperand n = .error .outOfRange :=
  if_neg (Nat.not_lt.2 h)

theorem wordOperand_of_ge {n : Nat} (h : 2 ^ 32 ≤ n) : wordOperand n = .error .outOfRange :=
  if_neg (Nat.not_lt.2 h)

theorem registerNumberOperand_of_ge {n : Nat} (h : 6 ≤ n) : registerNumberOperand n = .error .outOfRange :=
  if_neg (Nat.not_le.2 h)

theorem wellFormed_rdreg_of_number {n : Nat} {r : Byte} (h : registerNumberOperand n = .ok r) :
    (Instr.rdreg r).WellFormed = true := by
  unfold registerNumberOperand at h
  split at h
  case isTrue hn =>
    cases h
    interval_cases n <;> rfl
  case isFalse => cases h

theorem wellFormed_rdreg_regNumber (g : Reg) : (Instr.rdreg (regNumber g)).WellFormed = true := by
  cases g <;> rfl

theorem wellFormed_rdreg_of_name {t : Text} {r : Byte} (h : registerNameOperand t = .ok r) :
    (Instr.rdreg r).WellFormed = true := by
  unfold registerNameOperand at h
  split at h
  · cases h
    exact wellFormed_rdreg_regNumber _
  · cases h

/-- Some command words, each legal by R86. -/
def AllLegal (cs : List Word40) : Prop := ∀ c ∈ cs, LegalCommand c

theorem allLegal_singleton_encode {i : Instr} (h : i.WellFormed = true) : AllLegal [encode i] :=
  List.forall_mem_singleton.2 (legalCommand_encode h)

theorem except_map_eq_ok_iff {ε α β : Type} {x : Except ε α} {f : α → β} {b : β} :
    x.map f = .ok b ↔ ∃ a, x = .ok a ∧ f a = b := by
  cases x <;> simp [Except.map]

/-- A line of one command, whose operand may be refused. -/
theorem allLegal_of_map_operand {α : Type} {operand : Except AsmError α} {command : α → Instr} {cs : List Word40}
    (h : (operand.map fun a => [encode (command a)]) = .ok cs)
    (hwf : ∀ a, operand = .ok a → (command a).WellFormed = true) : AllLegal cs := by
  obtain ⟨a, ha, rfl⟩ := except_map_eq_ok_iff.1 h
  exact allLegal_singleton_encode (hwf a ha)

theorem assembleBytes_cons_eq_ok {n : Nat} {ns : List Nat} {cs : List Word40}
    (h : assembleBytes (n :: ns) = .ok cs) : ∃ b ds, assembleBytes ns = .ok ds ∧ cs = encode (.crcbyte b) :: ds := by
  rw [assembleBytes] at h
  split at h
  case h_1 b ds _ hds => exact ⟨b, ds, hds, (Except.ok.inj h).symm⟩
  case h_2 => cases h
  case h_3 => cases h

theorem allLegal_assembleBytes {ns : List Nat} {cs : List Word40} (h : assembleBytes ns = .ok cs) : AllLegal cs := by
  induction ns generalizing cs with
  | nil =>
    cases h
    exact List.forall_mem_nil _
  | cons n ns ih =>
    obtain ⟨b, ds, hds, rfl⟩ := assembleBytes_cons_eq_ok h
    exact List.forall_mem_cons.2 ⟨legalCommand_encode rfl, ih hds⟩

/-- R93: of the lines, only `.word` can give an illegal word. -/
theorem allLegal_assemble {src : Source} {cs : List Word40} (h : assemble src = .ok cs)
    (hword : ∀ n, src ≠ .word n) : AllLegal cs := by
  cases src with
  | crcinit | crcchk | w2binit | crcread | rdstat =>
    cases h
    exact allLegal_singleton_encode rfl
  | crcbyte n | b2w n | w2b n | w2bText t => exact allLegal_of_map_operand h fun _ _ => rfl
  | rdreg n => exact allLegal_of_map_operand h fun _ => wellFormed_rdreg_of_number
  | rdregName t => exact allLegal_of_map_operand h fun _ => wellFormed_rdreg_of_name
  | word n => exact absurd rfl (hword n)
  | crcbytes ns => exact allLegal_assembleBytes h
  | crcsum ns =>
    obtain ⟨ds, hds, rfl⟩ := except_map_eq_ok_iff.1 h
    have hfront : AllLegal (encode .crcinit :: ds) :=
      List.forall_mem_cons.2 ⟨legalCommand_encode rfl, allLegal_assembleBytes hds⟩
    exact List.forall_mem_append.2 ⟨hfront, allLegal_singleton_encode rfl⟩

/-- R94: one CRCBYTE a byte, in order. -/
theorem assembleBytes_map_toNat (bs : List Byte) :
    assembleBytes (bs.map BitVec.toNat) = .ok (bs.map fun b => encode (.crcbyte b)) := by
  induction bs with
  | nil => rfl
  | cons b bs ih => simp only [List.map_cons, assembleBytes, byteOperand_toNat, ih]

end Sys2Proof.Machine
end

section
/-! The statements of 30_encoding.md. -/

open Sys2Proof Sys2Proof.Machine

/-- Settles O11, by cases on the instruction: `decode_encode` reads each operand back whole. -/
theorem decodeOfEncode : Obligations.DecodeOfEncode := fun _ => decode_encode

/-- Settles O9: a word that decodes is an encoded instruction, whose row is known; a row's condition is its command's
in R86; and two rows differ in a bit that both test. -/
theorem legalWordsAreTableRows : Obligations.LegalWordsAreTableRows := by
  refine ⟨decode_ok_iff_legalCommand, fun c => ⟨?_, ?_⟩, fun c j k hj hk => ?_, fun c i row hrow hmatch hi => ?_⟩
  · rintro ⟨i, hi⟩
    exact exists_row_of_decode hi
  · rintro ⟨row, hrow, hmatch⟩
    obtain ⟨i, hi, -⟩ := decode_of_rowMatches hrow hmatch
    exact ⟨i, hi⟩
  · exact eq_of_patterns_agree j k (patterns_agree hj hk)
  · obtain ⟨i', hi', hmnemonic⟩ := decode_of_rowMatches hrow hmatch
    cases hi.symm.trans hi'
    exact hmnemonic

/-- Settles O10: the legal words are as many as the commands' legal operands. -/
theorem legalWordCount : Obligations.LegalWordCount :=
  card_legal.trans ((Nat.card_congr wellFormedEquivOperands).trans natCard_legalOperands)

/-- Settles O12, by cases on the seven ways a word decodes. -/
theorem encodeOfDecode : Obligations.EncodeOfDecode :=
  fun _ _ h => ⟨encode_of_decode h, wellFormed_of_decode h⟩

/-- Settles O14: five bytes and a word determine each other, and byte `k` is read off the word. -/
theorem bytesCarryWords : Obligations.BytesCarryWords :=
  ⟨fun c => ⟨wordOfBytes_wordBytes c, decodeBytes_wordBytes c⟩, fun _ _ => wordBytes_of_wordOfBytes,
    fun c _ => wordBytes_getElem? c⟩

/-- Settles O15: every command answers OK or raises one of the block's three faults. -/
theorem blockStatusCodes : Obligations.BlockStatusCodes := by
  intro s c
  obtain ⟨t, ht, r, hr, hblock⟩ := executeWord_addsBlockResponse c s
  refine ⟨t, r, ht, hr, ?_, responseWord_data r, hblock.data⟩
  rw [responseWord_status]
  exact statusCode_of_blockStatus r.status hblock.status

/-- Settles O57, by cases on the line: every line but `.word` emits encoded well-formed instructions. -/
theorem assemblerEmitsLegalWords : Obligations.AssemblerEmitsLegalWords := by
  refine ⟨fun _ _ => allLegal_assemble, fun n hn => ?_, fun n hn => ?_, fun n hn => ?_⟩
  · rw [assemble, assemble, byteOperand_of_ge hn]
    exact ⟨rfl, rfl⟩
  · rw [assemble, wordOperand_of_ge hn]
    rfl
  · rw [assemble, registerNumberOperand_of_ge hn]
    rfl

/-- Settles O58, by induction on the bytes of CRCBYTES, on which CRCSUM rests. -/
theorem pseudoInstructionsExpand : Obligations.PseudoInstructionsExpand := by
  refine ⟨rfl, rfl, fun bs => ⟨assembleBytes_map_toNat bs, ?_⟩⟩
  rw [assemble, assembleBytes_map_toNat]
  rfl

/-- Settles O13: the decoder evaluated at the spec's words. -/
theorem sampleWordsDecode : Obligations.SampleWordsDecode :=
  ⟨rfl, rfl, rfl, rfl, rfl, rfl, rfl, rfl, rfl, rfl⟩

/-- Settles O16. -/
theorem stepRunsDecoded : Obligations.StepRunsDecoded := by
  intro s c ms i hmoves hc
  rw [step_of_moves hmoves, perform, executeWord_of_ok hc]
end

section
/-! SUPPORT. The functions of the CRC unit (40_crc.md R111 to R113) under XOR, for every polynomial (R124, R125,
R128). -/

namespace Sys2Proof.Machine

theorem crcOver_append_singleton (poly : Byte) (p : List Byte) (c : Byte) :
    crcOver poly (p ++ [c]) = crcByteOver poly (crcOver poly p) c := by
  simp [crcOver]

@[simp] theorem crcBitOver_zero (poly : Byte) : crcBitOver poly 0#8 = 0#8 := by
  simp [crcBitOver]

/-- R125 (a): the polynomial comes in once for each operand whose bit 7 is 1, and twice is not at all. -/
theorem crcBitOver_xor (poly : Byte) : Function.Semiconj₂ (crcBitOver poly) (· ^^^ ·) (· ^^^ ·) := by
  intro a a'
  simp only [crcBitOver, BitVec.getLsbD_xor, BitVec.shiftLeft_xor_distrib]
  cases a.getLsbD 7 <;> cases a'.getLsbD 7
  case false.false => rfl
  case false.true => exact BitVec.xor_assoc _ _ _
  case true.false =>
    show (a <<< 1 ^^^ a' <<< 1) ^^^ poly = (a <<< 1 ^^^ poly) ^^^ a' <<< 1
    ac_rfl
  case true.true =>
    calc a <<< 1 ^^^ a' <<< 1
        = (a <<< 1 ^^^ a' <<< 1) ^^^ (poly ^^^ poly) := by rw [BitVec.xor_self, BitVec.xor_zero]
      _ = (a <<< 1 ^^^ poly) ^^^ (a' <<< 1 ^^^ poly) := by ac_rfl

/-- R125 (c). -/
theorem crcByteOver_xor (poly a a' b b' : Byte) :
    crcByteOver poly (a ^^^ a') (b ^^^ b') = crcByteOver poly a b ^^^ crcByteOver poly a' b' := by
  have hpair : (a ^^^ a') ^^^ (b ^^^ b') = (a ^^^ b) ^^^ (a' ^^^ b') := by ac_rfl
  rw [crcByteOver, hpair]
  exact (crcBitOver_xor poly).iterate 8 _ _

@[simp] theorem crcByteOver_self (poly a : Byte) : crcByteOver poly a a = 0#8 := by
  rw [crcByteOver, BitVec.xor_self]
  exact Function.iterate_fixed (crcBitOver_zero poly) 8

/-- R125 (d), from any two accumulators. -/
theorem foldl_crcByteOver_xorBytes (poly : Byte) {s e : List Byte} (h : s.length = e.length) (a a' : Byte) :
    (xorBytes s e).foldl (crcByteOver poly) (a ^^^ a') =
      s.foldl (crcByteOver poly) a ^^^ e.foldl (crcByteOver poly) a' := by
  induction s generalizing e a a' with
  | nil =>
    cases List.length_eq_zero_iff.1 h.symm
    rfl
  | cons b s ih =>
    obtain ⟨b', e, rfl⟩ := List.exists_cons_of_length_eq_add_one h.symm
    rw [List.foldl_cons, List.foldl_cons, ← ih (Nat.succ.inj h), ← crcByteOver_xor]
    rfl

/-- R128: a zero byte leaves the zero accumulator as it is. -/
theorem foldl_crcByteOver_zeros (poly : Byte) (k : Nat) :
    (List.replicate k 0x00#8).foldl (crcByteOver poly) 0#8 = 0#8 := by
  induction k with
  | zero => rfl
  | succ k ih => rw [List.replicate_succ, List.foldl_cons, crcByteOver_self, ih]

end Sys2Proof.Machine
end

section
/-! SUPPORT. No information is lost under PBCORE's polynomial (40_crc.md R126), so two messages that differ in one byte
leave two residues (R127). -/

namespace Sys2Proof.Machine

theorem crcByte_eq_iterate (a b : Byte) : crcByte a b = crcBit^[8] (a ^^^ b) := rfl

theorem crc_append_singleton (p : List Byte) (c : Byte) : crc (p ++ [c]) = crcByte (crc p) c :=
  crcOver_append_singleton Config.poly p c

/-- R126: the polynomial's own bit 0 is 1, and the shift leaves bit 0 clear. -/
theorem crcBit_getLsbD_zero (a : Byte) : (crcBit a).getLsbD 0 = a.getLsbD 7 := by
  rw [crcBit, crcBitOver]
  split
  case isTrue h => simp [h, Config.poly]
  case isFalse h => simp [Bool.eq_false_of_not_eq_true h, -BitVec.getLsbD_eq_getElem]

/-- R126: bit 0 tells whether the polynomial came in, and the other bits are then the shifted ones. -/
theorem crcBit_injective : Function.Injective crcBit := by
  intro a a' h
  have htop : a.getLsbD 7 = a'.getLsbD 7 := by rw [← crcBit_getLsbD_zero, h, crcBit_getLsbD_zero]
  have hshift : a <<< 1 = a' <<< 1 := by
    simp only [crcBit, crcBitOver, htop] at h
    split at h
    · exact (BitVec.xor_left_inj _).1 h
    · exact h
  refine BitVec.eq_of_getLsbD_eq fun i hi => ?_
  obtain rfl | hlow := eq_or_ne i 7
  · exact htop
  · have hbit := congrArg (BitVec.getLsbD · (i + 1)) hshift
    have hin : i + 1 < 8 := by omega
    simpa [hin, BitVec.getLsbD_eq_getElem hi] using hbit

theorem crcByte_injective_left (b : Byte) : Function.Injective (crcByte · b) :=
  (crcBit_injective.iterate 8).comp (xor_left_involutive b).injective

theorem crcByte_injective_right (a : Byte) : Function.Injective (crcByte a) :=
  (crcBit_injective.iterate 8).comp (xor_right_involutive a).injective

theorem crcByte_eq_zero_iff (a b : Byte) : crcByte a b = 0#8 ↔ b = a := by
  rw [← crcByteOver_self Config.poly a]
  exact (crcByte_injective_right a).eq_iff

theorem foldl_crcByte_injective (bs : List Byte) : Function.Injective (bs.foldl crcByte) := by
  induction bs with
  | nil => exact Function.injective_id
  | cons b bs ih => exact ih.comp (crcByte_injective_left b)

/-- A changed byte leaves another accumulator, and whatever follows keeps the two apart. -/
theorem foldl_crcByte_modify_ne {f : Byte → Byte} (hf : ∀ b, f b ≠ b) {m : List Byte} {i : Nat} (hi : i < m.length)
    (a : Byte) : (m.modify i f).foldl crcByte a ≠ m.foldl crcByte a := by
  induction m generalizing i a with
  | nil => exact absurd hi (Nat.not_lt_zero i)
  | cons b m ih =>
    cases i with
    | zero =>
      rw [List.modify_zero_cons, List.foldl_cons, List.foldl_cons, (foldl_crcByte_injective m).ne_iff,
        (crcByte_injective_right a).ne_iff]
      exact hf b
    | succ i =>
      rw [List.modify_succ_cons]
      exact ih (Nat.lt_of_succ_lt_succ hi) _

/-- R127. -/
theorem crc_flipBit_ne_zero (p : List Byte) {i k : Nat} (hi : i < p.length + 1) (hk : k < 8) :
    crc (flipBit (p ++ [crc p]) i k) ≠ 0#8 := by
  have hmask : 1#8 <<< k ≠ 0#8 := by
    interval_cases k <;> decide
  have hflip : ∀ b : Byte, b ^^^ (1#8 <<< k) ≠ b := fun b => by
    rwa [ne_eq, xor_left_eq_self_iff]
  rw [← crc_append_crc p]
  exact foldl_crcByte_modify_ne hflip (by simpa using hi) _

end Sys2Proof.Machine
end

section
/-! SUPPORT. Bytes as polynomials over the field of two elements (40_crc.md R115). -/

namespace Sys2Proof.Machine

open Polynomial

/-- R115: bit `k` is the coefficient of `x^k`. -/
noncomputable def bytePoly (a : Byte) : (ZMod 2)[X] :=
  ∑ k ∈ Finset.range 8, if a.getLsbD k then X ^ k else 0

/-- R115's `g`. -/
noncomputable def crcModulus : (ZMod 2)[X] := X ^ 8 + X ^ 2 + X + 1

theorem crcModulus_monic : crcModulus.Monic := by
  unfold crcModulus
  monicity!

theorem degree_bytePoly_lt (a : Byte) : (bytePoly a).degree < crcModulus.degree := by
  have hmodulus : crcModulus.degree = 8 := by
    unfold crcModulus
    compute_degree!
  rw [hmodulus]
  refine mem_degreeLT.1 (Submodule.sum_mem _ fun k hk => ?_)
  split
  · exact mem_degreeLT.2 ((degree_X_pow_le k).trans_lt (mod_cast Finset.mem_range.1 hk))
  · exact Submodule.zero_mem _

/-- Over the field of two elements XOR is addition. -/
theorem bytePoly_xor (a b : Byte) : bytePoly (a ^^^ b) = bytePoly a + bytePoly b := by
  rw [bytePoly, bytePoly, bytePoly, ← Finset.sum_add_distrib]
  refine Finset.sum_congr rfl fun k _ => ?_
  rw [BitVec.getLsbD_xor]
  cases a.getLsbD k <;> cases b.getLsbD k <;> simp [CharTwo.add_self_eq_zero]

/-- The shift multiplies by `x`, but for the bit 7 it drops. -/
theorem bytePoly_shiftLeft_one (a : Byte) :
    bytePoly (a <<< 1) + (if a.getLsbD 7 then X ^ 8 else 0) = bytePoly a * X := by
  have hfirst : (a <<< 1).getLsbD 0 = false := by simp
  have hnext : ∀ k ∈ Finset.range 7, (a <<< 1).getLsbD (k + 1) = a.getLsbD k := fun k hk => by
    have hlt : k + 1 < 8 := Nat.succ_lt_succ (Finset.mem_range.1 hk)
    simp [BitVec.getLsbD_shiftLeft, hlt, -BitVec.getLsbD_eq_getElem]
  have hlow : bytePoly (a <<< 1) = (∑ k ∈ Finset.range 7, if a.getLsbD k then X ^ k else 0) * X := by
    rw [bytePoly, Finset.sum_range_succ', hfirst, Finset.sum_mul]
    simp only [Bool.false_eq_true, if_false, add_zero, ite_mul, zero_mul, ← pow_succ]
    exact Finset.sum_congr rfl fun k hk => by rw [hnext k hk]
  have htop : bytePoly a = (∑ k ∈ Finset.range 7, if a.getLsbD k then X ^ k else 0) +
      if a.getLsbD 7 then X ^ 7 else 0 := Finset.sum_range_succ _ 7
  rw [hlow, htop, add_mul, ite_mul, zero_mul, ← pow_succ]

/-- R9: `POLY` is `g` without its leading term. -/
theorem bytePoly_poly : X ^ 8 + bytePoly Config.poly = crcModulus := by
  have hlow : bytePoly Config.poly = 1 + X + X ^ 2 := by
    simp [bytePoly, Config.poly, Finset.sum_range_succ]
  rw [hlow, crcModulus]
  ring

/-- One iteration multiplies by `x` and takes `g` away when the product has degree 8. -/
theorem bytePoly_crcBit (a : Byte) :
    bytePoly a * X - bytePoly (crcBit a) = if a.getLsbD 7 then crcModulus else 0 := by
  rw [← bytePoly_shiftLeft_one, crcBit, crcBitOver]
  split
  · rw [bytePoly_xor, ← bytePoly_poly, add_sub_add_left_eq_sub, CharTwo.sub_eq_add]
  · simp

theorem crcModulus_dvd_iterate (a : Byte) (n : Nat) :
    crcModulus ∣ bytePoly a * X ^ n - bytePoly (crcBit^[n] a) := by
  induction n with
  | zero => simp
  | succ n ih =>
    have hstep : crcModulus ∣ bytePoly (crcBit^[n] a) * X - bytePoly (crcBit (crcBit^[n] a)) := by
      rw [bytePoly_crcBit]
      split
      · exact dvd_rfl
      · exact dvd_zero _
    rw [Function.iterate_succ_apply']
    have hsum := (ih.mul_right X).add hstep
    rwa [sub_mul, mul_assoc, ← pow_succ, sub_add_sub_cancel] at hsum

/-- R115: `n` iterations multiply by `x^n` modulo `g`. -/
theorem bytePoly_iterate_crcBit (a : Byte) (n : Nat) :
    bytePoly (crcBit^[n] a) = (bytePoly a * X ^ n) %ₘ crcModulus := by
  rw [modByMonic_eq_of_dvd_sub crcModulus_monic (crcModulus_dvd_iterate a n)]
  exact ((modByMonic_eq_self_iff crcModulus_monic).2 (degree_bytePoly_lt _)).symm

end Sys2Proof.Machine
end

section
/-! SUPPORT. Single words: what CRCCHK and RDREG ACC answer (40_crc.md R122, 42_system.md R160), what CRCINIT leaves, and
the illegal words of an opcode (60_exceptions.md R204). -/

namespace Sys2Proof.Machine

theorem executeWord_encode {i : Instr} (h : i.WellFormed = true) (s : State) : executeWord (encode i) s = exec i s :=
  executeWord_of_ok (decode_encode h) s

theorem runCommands_singleton (c : Word40) (s : State) : runCommands [c] s = executeWord c s := by
  obtain ⟨t, ht, -⟩ := executeWord_frame c s
  rw [runCommands_cons ht, ht]
  rfl

theorem runCommands_crcinit_cons (cs : List Word40) (s : State) :
    runCommands (encode .crcinit :: cs) s = runCommands cs (State.respond .ok 0#32 { s with acc := 0#8 }) :=
  runCommands_cons (executeWord_encode rfl s) cs

/-- R160: RDREG ACC. -/
theorem executeWord_rdreg_acc (s : State) :
    executeWord (encode (.rdreg 1#8)) s = .next (s.respond .ok (zext32 s.acc)) :=
  executeWord_encode rfl s

theorem exec_crcchk_of_zero {s : State} (h : s.acc = 0#8) : exec .crcchk s = .next (s.respond .ok 0#32) := by
  simp [exec, execCrcchk, h]

/-- R122, R203. -/
theorem exec_crcchk_of_ne_zero {s : State} (h : s.acc ≠ 0#8) :
    exec .crcchk s = .next (s.respond .crcMismatch (zext32 s.acc)) := by
  simp [exec, execCrcchk, h, State.raise_crcMismatch]

/-- R204 for a word given by its fields. -/
theorem executeWord_word40_illegal {op : Byte} {arg : Word} (h : ∀ i, decode (word40 op arg) ≠ .ok i) (s : State) :
    executeWord (word40 op arg) s = .next (illegalEffect op s) := by
  cases hd : decode (word40 op arg) with
  | ok i => exact absurd hd (h i)
  | error e =>
    rw [executeWord_of_error hd, opField_word40]
    rfl

theorem zext32_ne_zero {b : Byte} (h : b ≠ 0#8) : zext32 b ≠ 0#32 := by
  intro hz
  rw [← dataByte_zext32 b, hz] at h
  exact h rfl

end Sys2Proof.Machine
end

section
/-! SUPPORT. ACC over a list of command words (40_crc.md R120 to R123): CRCINIT sets it, each CRCBYTE folds its operand
in, and no other word writes it. -/

namespace Sys2Proof

theorem decode?_eq_some_iff {c : Word40} {i : Instr} : decode? c = some i ↔ decode c = .ok i := by
  unfold decode?
  split <;> simp [*]

theorem decode?_encode {i : Instr} (h : i.WellFormed = true) : decode? (encode i) = some i :=
  decode?_eq_some_iff.2 (decode_encode h)

theorem crcOperands_cons (c : Word40) (cs : List Word40) :
    crcOperands (c :: cs) = crcOperands [c] ++ crcOperands cs :=
  List.filterMap_append (l := [c])

theorem crcOperands_singleton_of_crcbyte {c : Word40} {b : Byte} (h : decode c = .ok (.crcbyte b)) :
    crcOperands [c] = [b] := by
  simp [crcOperands, decode?_eq_some_iff.2 h]

theorem crcOperands_singleton_of_ne {c : Word40} (h : ∀ b, decode c ≠ .ok (.crcbyte b)) : crcOperands [c] = [] := by
  refine List.filterMap_eq_nil_iff.2 fun d hd => ?_
  cases List.mem_singleton.1 hd
  split
  case h_1 b hb => exact absurd (decode?_eq_some_iff.1 hb) (h b)
  case h_2 => rfl

theorem crcOperands_encode_crcbyte (bs : List Byte) : crcOperands (bs.map fun b => encode (.crcbyte b)) = bs := by
  induction bs with
  | nil => rfl
  | cons b bs ih =>
    rw [List.map_cons, crcOperands_cons, crcOperands_singleton_of_crcbyte (decode_encode rfl), ih,
      List.singleton_append]

end Sys2Proof

namespace Sys2Proof.Machine

/-- R123: the commands that do not write ACC. -/
theorem exec_keeps_acc {i : Instr} (hinit : i ≠ .crcinit) (hbyte : ∀ b, i ≠ .crcbyte b) (s : State) :
    NextWith (exec i s) (·.acc = s.acc) := by
  cases i with
  | crcinit => exact absurd rfl hinit
  | crcbyte b => exact absurd rfl (hbyte b)
  | b2w b | w2binit => exact ⟨_, rfl, rfl⟩
  | crcchk =>
    refine ⟨_, rfl, ?_⟩
    split <;> rfl
  | w2b w =>
    refine ⟨_, rfl, ?_⟩
    split <;> rfl
  | rdreg r =>
    refine ⟨_, rfl, ?_⟩
    split <;> rfl

theorem executeWord_acc {c : Word40} (hc : decode? c ≠ some .crcinit) (s : State) :
    NextWith (executeWord c s) (·.acc = (crcOperands [c]).foldl crcByte s.acc) := by
  rw [ne_eq, decode?_eq_some_iff] at hc
  by_cases hbyte : ∃ b, decode c = .ok (.crcbyte b)
  · obtain ⟨b, hb⟩ := hbyte
    rw [executeWord_of_ok hb, crcOperands_singleton_of_crcbyte hb]
    exact ⟨_, rfl, rfl⟩
  · rw [not_exists] at hbyte
    rw [crcOperands_singleton_of_ne hbyte]
    cases hi : decode c with
    | ok i =>
      rw [executeWord_of_ok hi]
      rw [hi] at hc hbyte
      exact exec_keeps_acc (fun h => hc (h ▸ rfl)) (fun b h => hbyte b (h ▸ rfl)) s
    | error e => exact ⟨_, executeWord_of_error hi s, rfl⟩

/-- R123: what a list of command words without CRCINIT does to ACC. -/
theorem runCommands_acc {cs : List Word40} (hcs : ∀ c ∈ cs, decode? c ≠ some .crcinit) (s : State) :
    NextWith (runCommands cs s) (·.acc = (crcOperands cs).foldl crcByte s.acc) := by
  induction cs generalizing s with
  | nil => exact ⟨s, rfl, rfl⟩
  | cons c cs ih =>
    rw [List.forall_mem_cons] at hcs
    obtain ⟨hc, hrest⟩ := hcs
    obtain ⟨u, hu, hacc⟩ := executeWord_acc hc s
    obtain ⟨t, ht, hacc'⟩ := ih hrest u
    refine ⟨t, by rw [runCommands_cons hu, ht], hacc'.trans ?_⟩
    rw [hacc, crcOperands_cons c cs, List.foldl_append]

/-- R123 from a zero accumulator: the bytes' checksum is in ACC, and any further word finds it there. -/
theorem runCommands_checksum {s : State} (hs : s.acc = 0#8) {cs : List Word40}
    (hcs : ∀ c ∈ cs, decode? c ≠ some .crcinit) (last : Word40) :
    ∃ u, u.acc = crc (crcOperands cs) ∧ runCommands (cs ++ [last]) s = executeWord last u := by
  obtain ⟨u, hu, hacc⟩ := runCommands_acc hcs s
  exact ⟨u, by rw [hacc, hs]; rfl, by rw [runCommands_append hu, runCommands_singleton]⟩

theorem runCommands_checksum_read {s : State} (hs : s.acc = 0#8) {cs : List Word40}
    (hcs : ∀ c ∈ cs, decode? c ≠ some .crcinit) :
    NextWith (runCommands (cs ++ [encode (.rdreg 1#8)]) s) fun t =>
      t.acc = crc (crcOperands cs) ∧ t.responses.getLast? = some ⟨.ok, zext32 (crc (crcOperands cs))⟩ := by
  obtain ⟨u, hacc, hrun⟩ := runCommands_checksum hs hcs (encode (.rdreg 1#8))
  exact ⟨_, hrun.trans (executeWord_rdreg_acc u), hacc, by simp [hacc]⟩

end Sys2Proof.Machine
end

section
/-! The statements of 40_crc.md. -/

open Sys2Proof Sys2Proof.Machine

/-- Settles O34: the checksum XORed into itself is zero, which every iteration keeps. -/
theorem zeroResidue : Obligations.ZeroResidue := by
  refine ⟨crc_append_crc, fun poly p => ?_⟩
  rw [crcOver_append_singleton, crcByteOver_self]

/-- Settles O35: one iteration is linear, hence eight are, hence the fold over the bytes is. -/
theorem crcIsLinear : Obligations.CrcIsLinear := by
  refine ⟨crcBitOver_xor Config.poly, fun a b => ⟨?_, ?_⟩, crcByteOver_xor Config.poly, fun s e h => ?_⟩
  · rw [crcByte_eq_iterate, crcByte_eq_iterate, BitVec.zero_xor]
  · rw [crcByte_eq_iterate, crcByte_eq_iterate, BitVec.xor_zero]
  · exact foldl_crcByteOver_xorBytes Config.poly h 0#8 0#8

/-- Settles O36: `crc_bit` loses no bit, so neither do eight iterations, and only the checksum cancels itself. -/
theorem crcIsBijective : Obligations.CrcIsBijective := by
  refine ⟨Finite.injective_iff_bijective.1 crcBit_injective,
    Finite.injective_iff_bijective.1 (crcByte_injective_right 0#8), crcByteOver_self _ _, crcBit_getLsbD_zero,
    fun p c => ?_⟩
  rw [crc_append_singleton, crcByte_eq_zero_iff]

/-- Settles O37: the flipped byte moves the accumulator, and the bytes after it keep it apart from the zero residue. -/
theorem singleBitErrorsDetected : Obligations.SingleBitErrorsDetected := fun p _ _ => crc_flipBit_ne_zero p

/-- Settles O38: CRCCHK finds the corrupted message's residue in ACC. -/
theorem crcchkCatchesSingleBitErrors : Obligations.CrcchkCatchesSingleBitErrors := by
  intro s p i k hi hk
  have hcrc := crc_flipBit_ne_zero p hi hk
  generalize flipBit (p ++ [crc p]) i k = m at hcrc
  have hnoinit : ∀ c ∈ m.map fun b => encode (.crcbyte b), decode? c ≠ some .crcinit :=
    List.forall_mem_map.2 fun b _ => by rw [decode?_encode rfl]; simp
  obtain ⟨u, hacc, hrun⟩ := runCommands_checksum (s := State.respond .ok 0#32 { s with acc := 0#8 }) rfl hnoinit
    (encode .crcchk)
  rw [crcOperands_encode_crcbyte] at hacc
  rw [← hacc] at hcrc
  refine ⟨u.respond .crcMismatch (zext32 u.acc), zext32 u.acc, ?_, by simp, zext32_ne_zero hcrc⟩
  rw [List.cons_append, runCommands_crcinit_cons, hrun, executeWord_encode rfl, exec_crcchk_of_ne_zero hcrc]

/-- Settles O39: zero bytes leave the initial accumulator as it is. -/
theorem leadingZerosInvisible : Obligations.LeadingZerosInvisible := by
  intro poly k s
  rw [crcOver, List.foldl_append, Config.crcInit, foldl_crcByteOver_zeros]
  rfl

/-- Settles O40: an iteration multiplies by `x` modulo `g`, so eight multiply by `x^8`. -/
theorem crcIsPolynomialDivision : Obligations.CrcIsPolynomialDivision := by
  intro poly hpoly
  obtain rfl : poly = bytePoly := funext hpoly
  refine ⟨fun a => ?_, fun a b => bytePoly_iterate_crcBit (a ^^^ b) 8⟩
  have hone := bytePoly_iterate_crcBit a 1
  rwa [pow_one] at hone

/-- Settles O41: by induction on the list, ACC holds the fold of its CRCBYTE operands when RDREG reads it. -/
theorem checksumSequence : Obligations.ChecksumSequence := by
  intro s mid hmid
  refine ⟨?_, fun hs => runCommands_checksum_read hs hmid⟩
  rw [List.cons_append, runCommands_crcinit_cons]
  exact runCommands_checksum_read rfl hmid

/-- Settles O1: CRCINIT has one legal operand field, zero. -/
theorem crcinitStartsChecksum : Obligations.CrcinitStartsChecksum :=
  ⟨decode_encode (i := .crcinit) rfl, fun _ => rfl,
    fun s _ harg => executeWord_word40_illegal (by simp [decode_eq_ok_iff, harg]) s⟩

/-- Settles O2: a function that does what R111 says is `crc_bit`, and CRCBYTE iterates it eight times. -/
theorem crcbyteFoldsOneByte : Obligations.CrcbyteFoldsOneByte := by
  intro bit hbit
  obtain rfl : bit = crcBit := by
    funext a
    rw [hbit, show 0xFF#8 = BitVec.allOnes 8 from rfl, BitVec.and_allOnes]
    rfl
  refine ⟨fun b => decode_encode (i := .crcbyte b) rfl, fun s b => rfl, fun s arg harg => ?_⟩
  have hhigh : arg.extractLsb' 8 24 ≠ 0#24 := by
    rwa [ne_eq, high_bits_zero_iff, Nat.not_lt]
  exact executeWord_word40_illegal (by simp [decode_eq_ok_iff, hhigh]) s

/-- Settles O3, by cases on the residue. -/
theorem crcchkTestsResidue : Obligations.CrcchkTestsResidue :=
  ⟨decode_encode (i := .crcchk) rfl, fun _ => exec_crcchk_of_zero, fun _ => exec_crcchk_of_ne_zero,
    fun s _ harg => executeWord_word40_illegal (by simp [decode_eq_ok_iff, harg]) s⟩

/-- Settles O33: `crc` evaluated on the spec's sequences. -/
theorem crcWorkedValues : Obligations.CrcWorkedValues := by
  unfold Obligations.CrcWorkedValues
  decide +kernel
end

section
/-! SUPPORT. The lookup commands one at a time (41_lookup.md R140, R143, R145): what W2B does on a hit and on a miss,
and which byte fields make a B2W word illegal. -/

namespace Sys2Proof.Machine

/-- R143, the hit, in terms of the reverse lookup. -/
theorem exec_w2b_of_rev {s : State} {w : Word} {i : Byte} (h : rev s.rom w = some i) :
    exec (.w2b w) s = .next (State.respond .ok (zext32 i) { s with pos := s.pos + 1#32 }) := by
  simp [exec, execW2b, h]

/-- R143, the miss: the position reported is the one before the step. -/
theorem exec_w2b_of_rev_none {s : State} {w : Word} (h : rev s.rom w = none) :
    exec (.w2b w) s =
      .next (State.respond .invalidWord s.pos (State.latchMiss w s.pos { s with pos := s.pos + 1#32 })) := by
  simp [exec, execW2b, h, State.raise_invalidWord]

/-- R143, the hit, in terms of the entries: the index of an entry is answered zero-extended. -/
theorem exec_w2b_of_getElem? {s : State} {w : Word} {i : Nat} (h : s.rom.entries[i]? = some w) :
    exec (.w2b w) s = .next (State.respond .ok (BitVec.ofNat 32 i) { s with pos := s.pos + 1#32 }) := by
  have hi : i < 256 := (List.getElem?_eq_some_iff.1 h).1.trans_eq s.rom.wellFormed.1
  have hzext : zext32 (BitVec.ofNat 8 i) = BitVec.ofNat 32 i := by
    rw [← BitVec.toNat_inj, zext32_toNat, BitVec.toNat_ofNat, BitVec.toNat_ofNat]
    omega
  rw [exec_w2b_of_rev (rev_of_getElem? h), hzext]

/-- R22: POS advances modulo `2^32`. -/
theorem pos_advance (p : Word) : BitVec.ofNat 32 (p.toNat + 1) = p + 1#32 := by
  rw [BitVec.ofNat_add, BitVec.ofNat_toNat, BitVec.setWidth_eq]

/-- R86: a byte operand's field is illegal from `0x100` on. -/
theorem high_bits_ne_zero {arg : Word} (h : 256 ≤ arg.toNat) : arg.extractLsb' 8 24 ≠ 0#24 := by
  rwa [ne_eq, high_bits_zero_iff, Nat.not_lt]

/-- R10 (c) read off one character code at a time. -/
theorem lowercaseCode_of_mem {t : WordTable} {w : Word} (hw : w ∈ t.entries) {k : Nat} (hk : k < 4) :
    lowercaseCode (w.extractLsb' (8 * k) 8) = true := by
  have hentry := lowercaseEntry_of_mem hw
  simp only [lowercaseEntry, Bool.and_eq_true] at hentry
  obtain ⟨⟨⟨h3, h2⟩, h1⟩, h0⟩ := hentry
  interval_cases k
  exacts [h0, h1, h2, h3]

/-- R149: data that answers a W2B hit is the byte whose entry the operand is. -/
theorem w2b_hit_data {s t : State} {w d : Word} (ht : exec (.w2b w) s = .next t)
    (hd : t.responses = s.responses ++ [⟨.ok, d⟩]) : ∃ i, rev s.rom w = some i ∧ d = zext32 i := by
  cases hrev : rev s.rom w with
  | some i =>
    rw [exec_w2b_of_rev hrev] at ht
    cases ht
    exact ⟨i, rfl, by simpa [eq_comm] using hd⟩
  | none =>
    rw [exec_w2b_of_rev_none hrev] at ht
    cases ht
    simp at hd

end Sys2Proof.Machine
end

section
/-! SUPPORT. The groups of commands (41_lookup.md R148): which words belong to each, and which registers the words
outside a group leave alone. -/

namespace Sys2Proof

theorem isCrcWord_iff (c : Word40) : isCrcWord c = true ↔
    decode c = .ok .crcinit ∨ (∃ b, decode c = .ok (.crcbyte b)) ∨ decode c = .ok .crcchk := by
  simp only [← decode?_eq_some_iff]
  cases h : decode? c with
  | none => simp [isCrcWord, h]
  | some i => cases i <;> simp [isCrcWord, h]

theorem isW2bWord_iff (c : Word40) : isW2bWord c = true ↔ ∃ w, decode c = .ok (.w2b w) := by
  simp only [← decode?_eq_some_iff]
  cases h : decode? c with
  | none => simp [isW2bWord, h]
  | some i => cases i <;> simp [isW2bWord, h]

theorem isW2bGroupWord_iff (c : Word40) : isW2bGroupWord c = true ↔
    (∃ w, decode c = .ok (.w2b w)) ∨ decode c = .ok .w2binit := by
  simp only [← decode?_eq_some_iff]
  cases h : decode? c with
  | none => simp [isW2bGroupWord, h]
  | some i => cases i <;> simp [isW2bGroupWord, h]

theorem isB2wWord_iff (c : Word40) : isB2wWord c = true ↔ ∃ b, decode c = .ok (.b2w b) := by
  simp only [← decode?_eq_some_iff]
  cases h : decode? c with
  | none => simp [isB2wWord, h]
  | some i => cases i <;> simp [isB2wWord, h]

/-- R86: the decoder's error is what makes a word illegal. -/
theorem exists_error_of_not_legal {c : Word40} (h : (!legal c) = true) : ∃ e, decode c = .error e := by
  cases hc : decode c with
  | ok i => simp [(legal_iff_decode_ok c).2 ⟨i, hc⟩] at h
  | error e => exact ⟨e, rfl⟩

end Sys2Proof

namespace Sys2Proof.Machine

/-- What W2B and W2BINIT read and write (R148): POS, the record of the first miss, and the ROM they search. -/
def State.w2bRegisters (s : State) : Word × Bool × Word × Word × WordTable :=
  (s.pos, s.iw, s.errWord, s.errPos, s.rom)

theorem State.w2bRegisters_eq_iff {s t : State} : s.w2bRegisters = t.w2bRegisters ↔
    s.pos = t.pos ∧ s.iw = t.iw ∧ s.errWord = t.errWord ∧ s.errPos = t.errPos ∧ s.rom = t.rom := by
  simp [State.w2bRegisters]

/-- R148: no command but W2B and W2BINIT writes what they read. -/
theorem exec_keeps_w2bRegisters {i : Instr} (hinit : i ≠ .w2binit) (hw2b : ∀ w, i ≠ .w2b w) (s : State) :
    NextWith (exec i s) (·.w2bRegisters = s.w2bRegisters) := by
  cases i with
  | w2binit => exact absurd rfl hinit
  | w2b w => exact absurd rfl (hw2b w)
  | crcinit | crcbyte b | b2w b => exact ⟨_, rfl, rfl⟩
  | crcchk =>
    refine ⟨_, rfl, ?_⟩
    split <;> rfl
  | rdreg r =>
    refine ⟨_, rfl, ?_⟩
    split <;> rfl

theorem executeWord_keeps_w2bRegisters {c : Word40} (hc : isW2bGroupWord c = false) (s : State) :
    NextWith (executeWord c s) (·.w2bRegisters = s.w2bRegisters) := by
  rw [← Bool.not_eq_true, isW2bGroupWord_iff, not_or, not_exists] at hc
  obtain ⟨hw2b, hinit⟩ := hc
  cases hi : decode c with
  | ok i =>
    rw [hi] at hw2b hinit
    rw [executeWord_of_ok hi]
    exact exec_keeps_w2bRegisters (fun h => hinit (h ▸ rfl)) (fun w h => hw2b w (h ▸ rfl)) s
  | error e => exact ⟨_, executeWord_of_error hi s, rfl⟩

/-- R148: a word outside the CRC group leaves ACC. -/
theorem executeWord_keeps_acc {c : Word40} (hc : isCrcWord c = false) (s : State) :
    NextWith (executeWord c s) (·.acc = s.acc) := by
  rw [← Bool.not_eq_true, isCrcWord_iff, not_or, not_or, not_exists] at hc
  obtain ⟨hinit, hbyte, -⟩ := hc
  have hacc := executeWord_acc (by rwa [ne_eq, decode?_eq_some_iff]) s
  rwa [crcOperands_singleton_of_ne hbyte] at hacc

/-- R26: a legal word leaves IC. -/
theorem executeWord_keeps_ic {c : Word40} (hc : (!legal c) = false) (s : State) :
    NextWith (executeWord c s) (·.ic = s.ic) := by
  rw [Bool.not_eq_false', legal_iff_decode_ok] at hc
  obtain ⟨i, hi⟩ := hc
  rw [executeWord_of_ok hi]
  exact exec_ic (wellFormed_of_decode hi) s

end Sys2Proof.Machine
end

section
/-! SUPPORT. Independence of a group of commands, said once (41_lookup.md R148): if a group's words read and write its
own registers only and all other words leave these alone, the group runs within any list of words as it runs alone. -/

namespace Sys2Proof.Machine

/-- Two steps give the one response, each behind those its block had given. -/
def SameAnswer (s t s' t' : State) : Prop :=
  ∃ r, t.responses = s.responses ++ [r] ∧ t'.responses = s'.responses ++ [r]

/-- A group of words is a unit of its own: `regs` is all that its words read and the other words leave alone; `rest`
is what its words leave alone. -/
structure IndependentUnit {ρ κ : Type} (group : Word40 → Bool) (regs : State → ρ) (rest : State → κ) : Prop where
  reads : ∀ {c}, group c = true → ∀ {s s' t t' : State}, regs s' = regs s → executeWord c s = .next t →
    executeWord c s' = .next t' → regs t' = regs t ∧ SameAnswer s t s' t'
  writes : ∀ {c}, group c = true → ∀ s, NextWith (executeWord c s) (rest · = rest s)
  others : ∀ {c}, group c = false → ∀ s, NextWith (executeWord c s) (regs · = regs s)

theorem newResponses_self (s : State) : newResponses s s = [] := List.drop_length

/-- R61: the first response of a run answers its first command. -/
theorem newResponses_cons {cs : List Word40} {s u t : State} {r : Response} (hu : u.responses = s.responses ++ [r])
    (ht : runCommands cs u = .next t) : newResponses s t = r :: newResponses u t := by
  obtain ⟨t', ht', rs, -, hrs⟩ := runCommands_responses cs u
  cases ht.symm.trans ht'
  simp [newResponses, hrs, hu]

theorem answersTo_cons_of_pos {p : Word40 → Bool} {c : Word40} (h : p c = true) (cs : List Word40) (r : Response)
    (rs : List Response) : answersTo p (c :: cs) (r :: rs) = r :: answersTo p cs rs := by
  simp [answersTo, h]

theorem answersTo_cons_of_neg {p : Word40 → Bool} {c : Word40} (h : p c = false) (cs : List Word40) (r : Response)
    (rs : List Response) : answersTo p (c :: cs) (r :: rs) = answersTo p cs rs := by
  simp [answersTo, h]

theorem answersTo_congr {p q : Word40 → Bool} {cs : List Word40} (h : ∀ c ∈ cs, p c = q c) (rs : List Response) :
    answersTo p cs rs = answersTo q cs rs := by
  rw [answersTo, answersTo, List.filter_congr]
  exact fun x hx => h x.1 (List.of_mem_zip hx).1

/-- R148: in any list of words, the group's registers and responses are those of its own words run alone, from any state
with the same registers. -/
theorem IndependentUnit.run_filter {ρ κ : Type} {group : Word40 → Bool} {regs : State → ρ} {rest : State → κ}
    (h : IndependentUnit group regs rest) {cs : List Word40} {s s' t : State} (hs : regs s' = regs s)
    (ht : runCommands cs s = .next t) :
    NextWith (runCommands (cs.filter group) s') fun u => rest u = rest s' ∧ regs t = regs u ∧
      answersTo group cs (newResponses s t) = newResponses s' u := by
  induction cs generalizing s s' with
  | nil =>
    cases ht
    exact ⟨s', rfl, rfl, hs.symm, by simp [newResponses_self, answersTo]⟩
  | cons c cs ih =>
    obtain ⟨v, hv, hframe⟩ := executeWord_frame c s
    rw [runCommands_cons hv] at ht
    cases hc : group c with
    | true =>
      obtain ⟨v', hv', hrest⟩ := h.writes hc s'
      obtain ⟨hregs, r, hr, hr'⟩ := h.reads hc hs hv hv'
      obtain ⟨u, hu, hrest', hregs', hanswers⟩ := ih hregs ht
      refine ⟨u, by rw [List.filter_cons_of_pos hc, runCommands_cons hv', hu], hrest'.trans hrest, hregs', ?_⟩
      rw [newResponses_cons hr ht, newResponses_cons hr' hu, answersTo_cons_of_pos hc, hanswers]
    | false =>
      obtain ⟨r, hr⟩ := hframe.answered
      obtain ⟨v', hv', hregs⟩ := h.others hc s
      cases hv.symm.trans hv'
      obtain ⟨u, hu, hrest, hregs', hanswers⟩ := ih (hs.trans hregs.symm) ht
      refine ⟨u, by rw [List.filter_cons_of_neg (by simp [hc]), hu], hrest, hregs', ?_⟩
      rw [newResponses_cons hr ht, answersTo_cons_of_neg hc, hanswers]

end Sys2Proof.Machine
end

section
/-! SUPPORT. The four units of R148: the CRC commands, the W2B engine, the B2W engine, and the illegal words. -/

namespace Sys2Proof.Machine

/-- ACC is all that CRCINIT, CRCBYTE and CRCCHK read or write. -/
theorem independentUnit_crc :
    IndependentUnit isCrcWord State.acc fun s => { s with acc := 0#8, responses := [] } where
  others hc := executeWord_keeps_acc hc
  writes hc s := by
    obtain hi | ⟨b, hi⟩ | hi := (isCrcWord_iff _).1 hc
    · exact ⟨_, executeWord_of_ok hi s, rfl⟩
    · exact ⟨_, executeWord_of_ok hi s, rfl⟩
    · refine ⟨_, executeWord_of_ok hi s, ?_⟩
      split <;> rfl
  reads hc s s' t t' hs ht ht' := by
    obtain hi | ⟨b, hi⟩ | hi := (isCrcWord_iff _).1 hc
    all_goals rw [executeWord_of_ok hi] at ht ht'
    · cases ht
      cases ht'
      exact ⟨rfl, _, rfl, rfl⟩
    · cases ht
      cases ht'
      exact ⟨congrArg (crcByte · b) hs, _, rfl, rfl⟩
    · by_cases hz : s.acc = 0#8
      · rw [exec_crcchk_of_zero hz] at ht
        rw [exec_crcchk_of_zero (hs.trans hz)] at ht'
        cases ht
        cases ht'
        exact ⟨hs, _, rfl, rfl⟩
      · rw [exec_crcchk_of_ne_zero hz] at ht
        rw [exec_crcchk_of_ne_zero (hs ▸ hz), hs] at ht'
        cases ht
        cases ht'
        exact ⟨hs, _, rfl, rfl⟩

/-- POS and the record are all that W2B and W2BINIT write, and with the ROM all that they read. -/
theorem independentUnit_w2b :
    IndependentUnit isW2bGroupWord State.w2bRegisters fun s => { s.clearMiss with pos := 0#32, responses := [] } where
  others hc := executeWord_keeps_w2bRegisters hc
  writes hc s := by
    obtain ⟨w, hi⟩ | hi := (isW2bGroupWord_iff _).1 hc
    · refine ⟨_, executeWord_of_ok hi s, ?_⟩
      split <;> rfl
    · exact ⟨_, executeWord_of_ok hi s, rfl⟩
  reads hc s s' t t' hs ht ht' := by
    obtain ⟨hpos, hiw, hword, herr, hrom⟩ := State.w2bRegisters_eq_iff.1 hs
    obtain ⟨w, hi⟩ | hi := (isW2bGroupWord_iff _).1 hc
    all_goals rw [executeWord_of_ok hi] at ht ht'
    · cases hrev : rev s.rom w with
      | some i =>
        rw [exec_w2b_of_rev hrev] at ht
        rw [exec_w2b_of_rev (hrom ▸ hrev)] at ht'
        cases ht
        cases ht'
        exact ⟨by simp [State.w2bRegisters_eq_iff, *], _, rfl, rfl⟩
      | none =>
        rw [exec_w2b_of_rev_none hrev] at ht
        rw [exec_w2b_of_rev_none (hrom ▸ hrev), hpos] at ht'
        cases ht
        cases ht'
        exact ⟨by simp [State.w2bRegisters_eq_iff, *], _, rfl, rfl⟩
    · cases ht
      cases ht'
      exact ⟨State.w2bRegisters_eq_iff.2 ⟨rfl, rfl, rfl, rfl, hrom⟩, _, rfl, rfl⟩

/-- B2W reads the ROM and writes no register. -/
theorem independentUnit_b2w : IndependentUnit isB2wWord State.rom fun s => { s with responses := [] } where
  others _ s := by
    obtain ⟨t, ht, hframe⟩ := executeWord_frame _ s
    exact ⟨t, ht, hframe.rom⟩
  writes hc s := by
    obtain ⟨b, hi⟩ := (isB2wWord_iff _).1 hc
    exact ⟨_, executeWord_of_ok hi s, rfl⟩
  reads hc s s' t t' hs ht ht' := by
    obtain ⟨b, hi⟩ := (isB2wWord_iff _).1 hc
    rw [executeWord_of_ok hi] at ht ht'
    cases ht
    cases ht'
    exact ⟨hs, _, rfl, by rw [State.respond_responses, hs]⟩

/-- Illegal words read nothing and write IC. -/
theorem independentUnit_illegal :
    IndependentUnit (fun c => !legal c) State.ic fun s => { s with ic := false, responses := [] } where
  others hc := executeWord_keeps_ic hc
  writes hc s := by
    obtain ⟨e, he⟩ := exists_error_of_not_legal hc
    exact ⟨_, executeWord_of_error he s, rfl⟩
  reads hc s s' t t' hs ht ht' := by
    obtain ⟨e, he⟩ := exists_error_of_not_legal hc
    rw [executeWord_of_error he] at ht ht'
    cases ht
    cases ht'
    exact ⟨rfl, _, rfl, rfl⟩

end Sys2Proof.Machine
end

section
/-! SUPPORT. A sequence of W2B commands (41_lookup.md R146): the positions it answers against, and the record it leaves;
and that a list of words without W2BINIT has, for the W2B engine, no other words than its W2B commands. -/

namespace Sys2Proof.Machine

/-- The first of some operands that is no entry (R146). -/
def firstMiss (t : WordTable) (ws : List Word) : Option Nat := ws.findIdx? fun w => !(t.entries.contains w)

theorem firstMiss_cons_of_mem {t : WordTable} {w : Word} (h : w ∈ t.entries) (ws : List Word) :
    firstMiss t (w :: ws) = (firstMiss t ws).map (· + 1) := by
  simp [firstMiss, List.findIdx?_cons, h]

theorem firstMiss_cons_of_notMem {t : WordTable} {w : Word} (h : w ∉ t.entries) (ws : List Word) :
    firstMiss t (w :: ws) = some 0 := by
  simp [firstMiss, List.findIdx?_cons, h]

/-- R23, R146: what W2B commands with operands `ws` make of the record of the state `s` they start from. A miss on
record stays; else the first operand that is no entry is recorded with its position. -/
def RecordAfter (s : State) (ws : List Word) (t : State) : Prop :=
  match s.iw, firstMiss s.rom ws with
  | false, some j => t.iw = true ∧ ws[j]? = some t.errWord ∧ t.errPos = s.pos + BitVec.ofNat 32 j
  | _, _ => t.iw = s.iw ∧ t.errWord = s.errWord ∧ t.errPos = s.errPos

section
variable {s t : State} {ws : List Word}

theorem recordAfter_of_iw (h : s.iw = true) :
    RecordAfter s ws t ↔ t.iw = true ∧ t.errWord = s.errWord ∧ t.errPos = s.errPos := by
  simp [RecordAfter, h]

theorem recordAfter_of_noMiss (hiw : s.iw = false) (h : firstMiss s.rom ws = none) :
    RecordAfter s ws t ↔ t.iw = false ∧ t.errWord = s.errWord ∧ t.errPos = s.errPos := by
  simp [RecordAfter, hiw, h]

theorem recordAfter_of_firstMiss {j : Nat} (hiw : s.iw = false) (h : firstMiss s.rom ws = some j) :
    RecordAfter s ws t ↔ t.iw = true ∧ ws[j]? = some t.errWord ∧ t.errPos = s.pos + BitVec.ofNat 32 j := by
  simp [RecordAfter, hiw, h]

theorem recordAfter_nil (s : State) : RecordAfter s [] s := by
  cases hs : s.iw with
  | true => exact (recordAfter_of_iw hs).2 ⟨hs, rfl, rfl⟩
  | false => exact (recordAfter_of_noMiss hs rfl).2 ⟨hs, rfl, rfl⟩

end

/-- The position of a word, counted from before the step and from after it. -/
theorem pos_succ (p : Word) (n : Nat) : p + 1#32 + BitVec.ofNat 32 n = p + BitVec.ofNat 32 (n + 1) := by
  rw [BitVec.ofNat_add, BitVec.add_assoc, BitVec.add_comm 1#32]

/-- A hit leaves the record, and the positions count on from it. -/
theorem recordAfter_cons_of_mem {s u t : State} {w : Word} {ws : List Word} (hw : w ∈ s.rom.entries)
    (hu : u.w2bRegisters = (s.pos + 1#32, s.iw, s.errWord, s.errPos, s.rom)) (h : RecordAfter u ws t) :
    RecordAfter s (w :: ws) t := by
  simp only [State.w2bRegisters, Prod.mk.injEq] at hu
  obtain ⟨hpos, hiw, hword, herr, hrom⟩ := hu
  cases hs : s.iw with
  | true => rwa [recordAfter_of_iw hs, ← hword, ← herr, ← recordAfter_of_iw (hiw.trans hs)]
  | false =>
    rw [hs] at hiw
    cases hj : firstMiss s.rom ws with
    | none =>
      rw [recordAfter_of_noMiss hiw (by rw [hrom, hj]), hword, herr] at h
      exact (recordAfter_of_noMiss hs (by rw [firstMiss_cons_of_mem hw, hj]; rfl)).2 h
    | some j =>
      rw [recordAfter_of_firstMiss hiw (by rw [hrom, hj]), hpos, pos_succ] at h
      exact (recordAfter_of_firstMiss hs (by rw [firstMiss_cons_of_mem hw, hj]; rfl)).2 h

/-- A miss is recorded if none was, and whatever follows leaves the record. -/
theorem recordAfter_cons_of_notMem {s u t : State} {w : Word} {ws : List Word} (hw : w ∉ s.rom.entries)
    (hiw : u.iw = true) (hword : u.errWord = if s.iw then s.errWord else w)
    (herr : u.errPos = if s.iw then s.errPos else s.pos) (h : RecordAfter u ws t) : RecordAfter s (w :: ws) t := by
  rw [recordAfter_of_iw hiw, hword, herr] at h
  cases hs : s.iw with
  | true =>
    rw [if_pos hs, if_pos hs] at h
    exact (recordAfter_of_iw hs).2 h
  | false =>
    rw [if_neg (by simp [hs]), if_neg (by simp [hs])] at h
    obtain ⟨htiw, htword, htpos⟩ := h
    exact (recordAfter_of_firstMiss hs (firstMiss_cons_of_notMem hw ws)).2
      ⟨htiw, congrArg some htword.symm, htpos.trans (BitVec.add_zero _).symm⟩

/-- R143 as the first step of a sequence: the position advances, one answer is given, and what the rest of the sequence
makes of the record is what the whole makes of it. -/
theorem executeWord_w2b_first (w : Word) (s : State) :
    NextWith (executeWord (encode (.w2b w)) s) fun u => u.pos = s.pos + 1#32 ∧ u.rom = s.rom ∧
      (∃ r, u.responses = s.responses ++ [r] ∧
        ∀ ws, w2bAnswers s.rom s.pos (w :: ws) = r :: w2bAnswers s.rom (s.pos + 1#32) ws) ∧
      ∀ ws t, RecordAfter u ws t → RecordAfter s (w :: ws) t := by
  rw [executeWord_encode rfl]
  by_cases hw : w ∈ s.rom.entries
  · exact ⟨_, exec_w2b_of_getElem? (List.getElem?_idxOf hw), rfl, rfl,
      ⟨_, rfl, fun ws => by rw [w2bAnswers, if_pos hw]⟩, fun _ _ => recordAfter_cons_of_mem hw rfl⟩
  · exact ⟨_, exec_w2b_of_rev_none (rev_of_notMem hw), rfl, rfl,
      ⟨_, rfl, fun ws => by rw [w2bAnswers, if_neg hw]⟩, fun _ _ => recordAfter_cons_of_notMem hw rfl rfl rfl⟩

/-- R146, R147: a sequence of W2B commands, from any state. -/
theorem runCommands_w2b (ws : List Word) (s : State) :
    NextWith (runCommands (ws.map fun w => encode (.w2b w)) s) fun t =>
      t.pos = s.pos + BitVec.ofNat 32 ws.length ∧ newResponses s t = w2bAnswers s.rom s.pos ws ∧
        RecordAfter s ws t := by
  induction ws generalizing s with
  | nil => exact ⟨s, rfl, by simp, newResponses_self s, recordAfter_nil s⟩
  | cons w ws ih =>
    obtain ⟨u, hu, hpos, hrom, ⟨r, hr, hcons⟩, hfirst⟩ := executeWord_w2b_first w s
    obtain ⟨t, ht, hpos', hanswers, hrecord⟩ := ih u
    refine ⟨t, by rw [List.map_cons, runCommands_cons hu, ht], ?_, ?_, hfirst ws t hrecord⟩
    · rw [hpos', hpos, pos_succ, List.length_cons]
    · rw [newResponses_cons hr ht, hanswers, hrom, hpos, hcons]

end Sys2Proof.Machine

namespace Sys2Proof

theorem isW2bWord_eq_isW2bGroupWord {c : Word40} (hc : decode? c ≠ some .w2binit) :
    isW2bWord c = isW2bGroupWord c := by
  rw [ne_eq, decode?_eq_some_iff] at hc
  rw [Bool.eq_iff_iff, isW2bWord_iff, isW2bGroupWord_iff, or_iff_left hc]

theorem w2bOperands_cons_of_w2b {c : Word40} {w : Word} (h : decode c = .ok (.w2b w)) (cs : List Word40) :
    w2bOperands (c :: cs) = w :: w2bOperands cs := by
  simp [w2bOperands, decode?_eq_some_iff.2 h]

theorem w2bOperands_cons_of_not_w2b {c : Word40} (h : ¬ isW2bWord c = true) (cs : List Word40) :
    w2bOperands (c :: cs) = w2bOperands cs := by
  refine List.filterMap_cons_none ?_
  split
  case h_1 w hw => exact absurd ((isW2bWord_iff c).2 ⟨w, decode?_eq_some_iff.1 hw⟩) h
  case h_2 => rfl

/-- The W2B words of a list are the words of its W2B operands. -/
theorem filter_isW2bWord (cs : List Word40) :
    cs.filter isW2bWord = (w2bOperands cs).map fun w => encode (.w2b w) := by
  induction cs with
  | nil => rfl
  | cons c cs ih =>
    by_cases hc : isW2bWord c = true
    · obtain ⟨w, hw⟩ := (isW2bWord_iff c).1 hc
      rw [List.filter_cons_of_pos hc, w2bOperands_cons_of_w2b hw, List.map_cons, encode_of_decode hw, ih]
    · rw [List.filter_cons_of_neg hc, w2bOperands_cons_of_not_w2b hc, ih]

end Sys2Proof
end

section
/-! The statements of 41_lookup.md. -/

open Sys2Proof Sys2Proof.Machine

/-- Settles O4: every byte is the index of an entry (R52), and only the upper operand bits can make the word illegal. -/
theorem b2wAnswersEntry : Obligations.B2wAnswersEntry := by
  refine ⟨fun b => decode_encode (i := .b2w b) rfl, fun s b => ⟨_, getElem?_entries s.rom b, rfl⟩, fun s arg harg => ?_⟩
  exact executeWord_word40_illegal (by simp [decode_eq_ok_iff, high_bits_ne_zero harg]) s

/-- Settles O5, by cases on the lookup; a word with a code outside `a` to `z` is no entry, by R10 (c). -/
theorem w2bLooksUpWord : Obligations.W2bLooksUpWord := by
  refine ⟨fun w => decode_encode (i := .w2b w) rfl, fun s w i hi => ?_, fun s w hw => ?_, fun t w k hk hcode hw => ?_⟩
  · rw [exec_w2b_of_getElem? hi, pos_advance]
    rfl
  · rw [exec_w2b_of_rev_none (rev_of_notMem hw), pos_advance]
    rfl
  · have hlower := lowercaseCode_of_mem hw hk
    simp only [lowercaseCode, Bool.and_eq_true, decide_eq_true_eq] at hlower
    omega

/-- Settles O6: W2BINIT has one legal operand field, zero. -/
theorem w2binitStartsSequence : Obligations.W2binitStartsSequence :=
  ⟨decode_encode (i := .w2binit) rfl, fun _ => rfl,
    fun s _ harg => executeWord_word40_illegal (by simp [decode_eq_ok_iff, harg]) s⟩

/-- Settles O31: the two lookups are inverse to each other (R57), and neither command changes the ROM. -/
theorem enginesRoundTrip : Obligations.EnginesRoundTrip := by
  refine ⟨fun s b => ?_, fun s t w d ht hd => ?_⟩
  · have hrev : rev (s.respond .ok (romRead s.rom b)).rom (romRead s.rom b) = some b := rev_romRead s.rom b
    exact ⟨_, _, rfl, rfl, exec_w2b_of_rev hrev, rfl⟩
  · obtain ⟨i, hi, rfl⟩ := w2b_hit_data ht hd
    obtain ⟨t', ht', hframe⟩ := exec_frame (.w2b w) s
    cases ht.symm.trans ht'
    have hword : romRead t.rom i = w := by rw [hframe.rom, romRead_of_rev hi]
    have hbyte : (zext32 i).setWidth 8 = i := by simp [zext32]
    refine ⟨(zext32_toNat i).trans_lt i.isLt, _, rfl, ?_⟩
    rw [hbyte, State.respond_responses, hword]

/-- Settles O43: each of the four groups is a unit of its own, and it runs among other words as it runs alone. -/
theorem unitsAreIndependent : Obligations.UnitsAreIndependent := by
  intro cs s
  obtain ⟨t, ht, -⟩ := runCommands_responses cs s
  obtain ⟨u, hu, hrestCrc, hacc, hcrc⟩ := independentUnit_crc.run_filter rfl ht
  obtain ⟨v, hv, hrestW2b, hregs, hw2b⟩ := independentUnit_w2b.run_filter rfl ht
  obtain ⟨x, hx, hrestB2w, -, hb2w⟩ := independentUnit_b2w.run_filter rfl ht
  obtain ⟨y, hy, hrestIc, hic, hillegal⟩ := independentUnit_illegal.run_filter rfl ht
  obtain ⟨hpos, hiw, hword, herr, -⟩ := State.w2bRegisters_eq_iff.1 hregs
  refine ⟨t, u, v, x, y, ht, ⟨hu, ?_, hacc, hcrc⟩, ⟨hv, ?_, hpos, hiw, hword, herr, hw2b⟩, ⟨hx, ?_, hb2w⟩,
    ⟨hy, ?_, hic, hillegal⟩⟩
  · exact congrArg (fun z : State => { z with acc := u.acc, responses := u.responses }) hrestCrc
  · exact congrArg (fun z : State => { z with
      pos := v.pos, iw := v.iw, errWord := v.errWord, errPos := v.errPos, responses := v.responses }) hrestW2b
  · exact congrArg (fun z : State => { z with responses := x.responses }) hrestB2w
  · exact congrArg (fun z : State => { z with ic := y.ic, responses := y.responses }) hrestIc

/-- Settles O44: to the W2B engine the list is its W2B commands alone, and these are answered and recorded in order. -/
theorem firstMissDetermines : Obligations.FirstMissDetermines := by
  refine ⟨fun _ => ⟨rfl, rfl, rfl, rfl⟩, fun _ => ⟨_, rfl, rfl, rfl, rfl, rfl⟩, fun s cs hpos hiw hword herr hcs => ?_⟩
  have hgroup : ∀ c ∈ cs, isW2bWord c = isW2bGroupWord c := fun c hc => isW2bWord_eq_isW2bGroupWord (hcs c hc)
  obtain ⟨t, ht, -⟩ := runCommands_responses cs s
  obtain ⟨u, hu, -, hregs, hanswers⟩ := independentUnit_w2b.run_filter rfl ht
  obtain ⟨hpos', hiw', hword', herr', -⟩ := State.w2bRegisters_eq_iff.1 hregs
  rw [← List.filter_congr hgroup, filter_isW2bWord] at hu
  obtain ⟨v, hv, hposW2b, hanswersW2b, hrecord⟩ := runCommands_w2b (w2bOperands cs) s
  cases hu.symm.trans hv
  rw [hpos, BitVec.zero_add] at hposW2b
  rw [hpos] at hanswersW2b
  refine ⟨t, ht, hpos'.trans hposW2b, ?_, ?_⟩
  · rw [answersTo_congr hgroup, hanswers, hanswersW2b]
  · rw [hiw', hword', herr']
    cases hj : (w2bOperands cs).findIdx? fun w => !(s.rom.entries.contains w) with
    | none => rwa [recordAfter_of_noMiss hiw hj, hword, herr] at hrecord
    | some j => rwa [recordAfter_of_firstMiss hiw hj, hpos, BitVec.zero_add] at hrecord
end

section
/-! SUPPORT. The register read one operand at a time (42_system.md R160): what RDREG of each number answers, and which
operand fields make its word illegal. -/

namespace Sys2Proof.Machine

/-- R28: the numbers 6 to 255 name no register. -/
theorem regOfNumber_of_ge {r : Byte} (h : 6 ≤ r.toNat) : regOfNumber r = none := by
  unfold regOfNumber
  split
  case h_7 => rfl
  all_goals omega

theorem exec_rdreg_of_some {r : Byte} {g : Reg} (h : regOfNumber r = some g) (s : State) :
    exec (.rdreg r) s = .next (s.respond .ok (s.readReg g)) := by
  simp [exec, execRdreg, h]

theorem exec_rdreg_of_ge {r : Byte} (h : 6 ≤ r.toNat) (s : State) :
    exec (.rdreg r) s = .next (illegalEffect 0x20#8 s) := by
  rw [exec, execRdreg, regOfNumber_of_ge h]
  rfl

/-- R28: the view of the two flags as a number. -/
theorem State.statusView_eq (s : State) :
    s.statusView = BitVec.ofNat 32 ((if s.ic then 2 else 0) + if s.iw then 1 else 0) := by
  rw [← s.statusView_toNat, BitVec.ofNat_toNat, BitVec.setWidth_eq]

/-- R86: RDREG's operand field is illegal from 6 on, for its upper bits or for the number in its low byte. -/
theorem decode_rdreg_ne_ok {arg : Word} (h : 6 ≤ arg.toNat) (i : Instr) : decode (word40 0x20#8 arg) ≠ .ok i := by
  have hnumber : arg.extractLsb' 8 24 = 0#24 → ¬ (arg.extractLsb' 0 8).toNat ≤ 5 := by
    rw [high_bits_zero_iff, BitVec.extractLsb'_toNat, Nat.shiftRight_zero]
    omega
  simpa [decode_eq_ok_iff] using fun hhigh hle => absurd hle (hnumber hhigh)

end Sys2Proof.Machine
end

section
/-! The statements of 42_system.md. -/

open Sys2Proof Sys2Proof.Machine

/-- Settles O7: each number from 0 to 5 names its register, and the word of any other operand field does not decode. -/
theorem rdregReadsRegister : Obligations.RdregReadsRegister := by
  refine ⟨fun r hr => decode_encode (i := .rdreg r) (decide_eq_true hr), fun s => ⟨?_, ?_⟩, fun s arg harg => ?_⟩
  · rw [exec_rdreg_of_some (g := .status) rfl, State.readReg, State.statusView_eq]
    rfl
  · exact ⟨exec_rdreg_of_some (g := .acc) rfl s, exec_rdreg_of_some (g := .pos) rfl s,
      exec_rdreg_of_some (g := .errWord) rfl s, exec_rdreg_of_some (g := .errPos) rfl s,
      exec_rdreg_of_some (g := .poly) rfl s⟩
  · exact executeWord_word40_illegal (decode_rdreg_ne_ok harg) s

/-- Settles O8: the number names no register, so the term raises what its word, which does not decode, raises. -/
theorem rdregOfNoRegisterIsIllegal : Obligations.RdregOfNoRegisterIsIllegal := by
  intro s r hr
  have hoperand : 6 ≤ (r.setWidth 32 : Word).toNat := hr.trans_eq (zext32_toNat r).symm
  exact ⟨exec_rdreg_of_ge hr s, executeWord_word40_illegal (decode_rdreg_ne_ok hoperand) s⟩
end

section
/-! SUPPORT. The states the commands of the host's sequences leave, and the two commands whose answer is not always OK,
as the host sees them (40_crc.md R122, 41_lookup.md R143). -/

namespace Sys2Proof.Machine

/-- The state after W2BINIT (R145). -/
def State.afterW2binit (s : State) : State := State.respond .ok 0#32 { s.clearMiss with pos := 0#32 }

/-- The state after a W2B that hit and answered `b` (R143). -/
def State.afterHit (b : Byte) (s : State) : State := State.respond .ok (zext32 b) { s with pos := s.pos + 1#32 }

/-- The state after a W2B of `w` that missed (R143). -/
def State.afterMiss (w : Word) (s : State) : State :=
  State.respond .invalidWord s.pos (State.latchMiss w s.pos { s with pos := s.pos + 1#32 })

/-- The state after CRCINIT (R120). -/
def State.afterCrcinit (s : State) : State := State.respond .ok 0#32 { s with acc := Config.crcInit }

/-- The state after CRCBYTE (R121). -/
def State.afterCrcbyte (b : Byte) (s : State) : State := State.respond .ok 0#32 { s with acc := crcByte s.acc b }

theorem requestOk_w2binit_eq (s : State) : requestOk .w2binit s = some (0#32, s.afterW2binit) :=
  requestOk_w2binit s

theorem requestOk_crcinit_eq (s : State) : requestOk .crcinit s = some (0#32, s.afterCrcinit) :=
  requestOk_crcinit s

theorem requestOk_crcbyte_eq (b : Byte) (s : State) : requestOk (.crcbyte b) s = some (0#32, s.afterCrcbyte b) :=
  requestOk_crcbyte b s

theorem request_w2b_hit {s : State} {w : Word} {b : Byte} (h : rev s.rom w = some b) :
    request (.w2b w) s = some (⟨.ok, zext32 b⟩, s.afterHit b) :=
  request_w2b_of_rev h

theorem request_w2b_miss {s : State} {w : Word} (h : rev s.rom w = none) :
    request (.w2b w) s = some (⟨.invalidWord, s.pos⟩, s.afterMiss w) :=
  request_of_exec rfl (exec_w2b_of_rev_none h) rfl

/-- R122: CRCCHK answers, and reports a mismatch exactly for a nonzero residue. -/
theorem request_crcchk (s : State) :
    ∃ r t, request .crcchk s = some (r, t) ∧ (r.status = .crcMismatch ↔ s.acc ≠ 0#8) := by
  by_cases h : s.acc = 0#8
  · exact ⟨_, _, request_crcchk_of_acc_zero h, by simp [h]⟩
  · exact ⟨_, _, request_of_exec rfl (exec_crcchk_of_ne_zero h) rfl, by simp [h]⟩

end Sys2Proof.Machine
end

section
/-! SUPPORT. `words_to_bytes` (43_host_sequences.md R176) on the entries at the head of a list, and at the first word
that is none. -/

namespace Sys2Proof.Machine

theorem exists_romRead_of_mem {t : WordTable} {w : Word} (h : w ∈ t.entries) : ∃ b, romRead t b = w :=
  ⟨_, romRead_of_rev (rev_of_getElem? (List.getElem?_idxOf h))⟩

/-- Words that are all entries are the entries of some bytes. -/
theorem exists_bytes_of_entries {t : WordTable} {ws : List Word} (h : ∀ w ∈ ws, w ∈ t.entries) :
    ∃ bs : List Byte, bs.map (romRead t) = ws := by
  show ws ∈ Set.range (List.map (romRead t))
  rw [Set.range_list_map]
  exact fun w hw => exists_romRead_of_mem (h w hw)

/-- The state after W2B commands that hit and answered `bs` (R143). -/
def State.afterHits (bs : List Byte) (s : State) : State :=
  { s with
    pos := s.pos + BitVec.ofNat 32 bs.length
    responses := s.responses ++ bs.map fun b => ⟨.ok, zext32 b⟩ }

theorem State.afterHits_nil (s : State) : s.afterHits [] = s := by
  simp [State.afterHits]

theorem State.afterHits_cons (b : Byte) (bs : List Byte) (s : State) :
    s.afterHits (b :: bs) = (s.afterHit b).afterHits bs := by
  simp [State.afterHits, State.afterHit, State.respond, pos_succ]

theorem convertWords_cons_of_hit {s t : State} {b : Byte} {ws : List Word}
    {res : Except InvalidWordError (List Byte)} (h : convertWords ws (s.afterHit b) = some (res, t)) :
    convertWords (romRead s.rom b :: ws) s = some (res.map (b :: ·), t) := by
  simp [convertWords, request_w2b_hit (rev_romRead s.rom b), h]

theorem convertWords_entries (bs : List Byte) (s : State) :
    convertWords (bs.map (romRead s.rom)) s = some (.ok bs, s.afterHits bs) := by
  induction bs generalizing s with
  | nil => rw [State.afterHits_nil]; rfl
  | cons b bs ih => rw [State.afterHits_cons]; exact convertWords_cons_of_hit (ih (s.afterHit b))

theorem convertWords_firstMiss (bs : List Byte) {w : Word} {s : State} (hw : w ∉ s.rom.entries) (ws : List Word) :
    convertWords (bs.map (romRead s.rom) ++ w :: ws) s =
      some (.error ⟨w, (s.afterHits bs).pos.toNat⟩, (s.afterHits bs).afterMiss w) := by
  induction bs generalizing s with
  | nil => simp [convertWords, request_w2b_miss (rev_of_notMem hw), State.afterHits_nil]
  | cons b bs ih => rw [State.afterHits_cons]; exact convertWords_cons_of_hit (ih (s := s.afterHit b) hw)

/-- R176: the loop starts with POS zero and no miss on record. -/
theorem wordsToBytes_eq (ws : List Word) (s : State) : wordsToBytes ws s = convertWords ws s.afterW2binit := by
  rw [wordsToBytes, requestOk_w2binit_eq]

theorem wordsToBytes_entries (bs : List Byte) (s : State) :
    wordsToBytes (bs.map (romRead s.rom)) s = some (.ok bs, s.afterW2binit.afterHits bs) :=
  (wordsToBytes_eq _ s).trans (convertWords_entries bs s.afterW2binit)

end Sys2Proof.Machine
end

section
/-! SUPPORT. `encode` (43_host_sequences.md R173, R174, R178): the length of a text of words, and the interleaved
sequence. -/

namespace Sys2Proof.Machine

/-- R174: four characters a word, and a delimiter before each word but the first. -/
theorem joinWords_length {ws : List Word} (h : ws ≠ []) : (joinWords ws).length = 4 * ws.length + (ws.length - 1) := by
  induction ws with
  | nil => exact absurd rfl h
  | cons w ws ih =>
    cases ws with
    | nil => rfl
    | cons v vs =>
      have hcons : joinWords (w :: v :: vs) = wordText w ++ Config.delim :: joinWords (v :: vs) := by
        simp [joinWords, List.intercalate_cons_cons]
      have hword : (wordText w).length = 4 := rfl
      rw [hcons, List.length_append, List.length_cons, ih (List.cons_ne_nil v vs), hword]
      simp only [List.length_cons]
      omega

/-- The state after CRCBYTE and B2W of each byte in turn. -/
def State.afterFeedAndMap (bs : List Byte) (s : State) : State :=
  { s with
    acc := bs.foldl crcByte s.acc
    responses := s.responses ++ bs.flatMap fun b => [⟨.ok, 0#32⟩, ⟨.ok, romRead s.rom b⟩] }

/-- R178, D30: each byte is fed to the CRC unit and mapped to its entry. -/
theorem feedAndMap_eq (bs : List Byte) (s : State) :
    feedAndMap bs s = some (bs.map (romRead s.rom), s.afterFeedAndMap bs) := by
  induction bs generalizing s with
  | nil => simp [feedAndMap, State.afterFeedAndMap]
  | cons b bs ih => simp [feedAndMap, ih, State.afterFeedAndMap, State.respond]

/-- R178, D30: the interleaved sequence gives the text of `hostEncode_eq` and changes the same register. -/
theorem hostEncodeInterleaved_eq (p : List Byte) (s : State) : ∃ t,
    hostEncodeInterleaved p s = some (joinWords ((p ++ [crc p]).map (romRead s.rom)), t) ∧
      t = { s with acc := crc p, responses := t.responses } := by
  have hcrc : p.foldl crcByte Config.crcInit = crc p := rfl
  simp [hostEncodeInterleaved, feedAndMap_eq, State.afterFeedAndMap, hcrc, State.respond]

end Sys2Proof.Machine
end

section
/-! SUPPORT. The conversion of tokens (43_host_sequences.md R177, R179 step 4) as a function of the table and the
tokens, which both of the model's loops compute. -/

namespace Sys2Proof.Machine

/-- The byte of a token that is an entry. -/
def tokenByte (t : WordTable) (tok : Text) : Option Byte := (packToken tok).bind (rev t)

/-- The position InvalidWordError reports for token number `k`: the host's own count (R177), or the block's, which is
modulo `2^32` (R22). -/
def missPosition (tok : Text) (k : Nat) : Nat := if packToken tok = none then k else k % 2 ^ 32

theorem missPosition_of_lt {k : Nat} (h : k < 2 ^ 32) (tok : Text) : missPosition tok k = k := by
  rw [missPosition, Nat.mod_eq_of_lt h, ite_self]

/-- What the conversion of tokens from number `k` on yields. -/
def tokenConversion (t : WordTable) : Nat → List Text → Except HostError (List Byte)
  | _, [] => .ok []
  | k, tok :: toks =>
    match tokenByte t tok with
    | none => .error (.invalidWord tok (missPosition tok k))
    | some b => (tokenConversion t (k + 1) toks).map (b :: ·)

theorem tokenConversion_cons_of_some {t : WordTable} {tok : Text} {b : Byte} (h : tokenByte t tok = some b) (k : Nat)
    (toks : List Text) : tokenConversion t k (tok :: toks) = (tokenConversion t (k + 1) toks).map (b :: ·) := by
  rw [tokenConversion, h]

theorem tokenConversion_cons_of_none {t : WordTable} {tok : Text} (h : tokenByte t tok = none) (k : Nat)
    (toks : List Text) :
    tokenConversion t k (tok :: toks) = .error (.invalidWord tok (missPosition tok k)) := by
  rw [tokenConversion, h]

theorem badToken_eq (t : WordTable) (tok : Text) : badToken t tok = (tokenByte t tok).isNone := by
  rw [badToken, tokenByte]
  cases packToken tok with
  | none => rfl
  | some w =>
    by_cases hw : w ∈ t.entries
    · obtain ⟨b, rfl⟩ := exists_romRead_of_mem hw
      simp [hw]
    · simp [hw, rev_of_notMem hw]

/-- Tokens that are all entries are converted to their bytes. -/
theorem tokenConversion_of_noBad {t : WordTable} {toks : List Text} (h : toks.findIdx? (badToken t) = none) (k : Nat) :
    tokenConversion t k toks = .ok (tokenBytes t toks) ∧ (tokenBytes t toks).length = toks.length := by
  induction toks generalizing k with
  | nil => exact ⟨rfl, rfl⟩
  | cons tok toks ih =>
    rw [List.findIdx?_cons, badToken_eq] at h
    cases hb : tokenByte t tok with
    | none => simp [hb] at h
    | some b =>
      obtain ⟨hconv, hlen⟩ := ih (by simpa [hb] using h) (k + 1)
      have hbytes : tokenBytes t (tok :: toks) = b :: tokenBytes t toks := List.filterMap_cons_some hb
      rw [tokenConversion_cons_of_some hb, hconv, hbytes, List.length_cons, hlen]
      exact ⟨rfl, rfl⟩

/-- R184: the first token that is no entry is the one reported. -/
theorem tokenConversion_of_firstBad {t : WordTable} {toks : List Text} {j : Nat} {tok : Text}
    (h : toks.findIdx? (badToken t) = some j) (htok : toks[j]? = some tok) (k : Nat) :
    tokenConversion t k toks = .error (.invalidWord tok (missPosition tok (k + j))) := by
  induction toks generalizing j k with
  | nil => simp at h
  | cons tok' toks ih =>
    rw [List.findIdx?_cons, badToken_eq] at h
    cases hb : tokenByte t tok' with
    | none =>
      obtain rfl : 0 = j := by simpa [hb] using h
      obtain rfl : tok' = tok := by simpa using htok
      exact tokenConversion_cons_of_none hb k toks
    | some b =>
      obtain ⟨i, hi, rfl⟩ : ∃ i, toks.findIdx? (badToken t) = some i ∧ i + 1 = j := by simpa [hb] using h
      rw [tokenConversion_cons_of_some hb, ih hi (by simpa using htok) (k + 1), Nat.add_right_comm k 1 i]
      rfl

/-- R177: the conversion fails with InvalidWordError only. -/
theorem tokenConversion_cases (t : WordTable) (k : Nat) (toks : List Text) :
    (∃ bs, tokenConversion t k toks = .ok bs) ∨ ∃ tok p, tokenConversion t k toks = .error (.invalidWord tok p) := by
  cases hj : toks.findIdx? (badToken t) with
  | none => exact .inl ⟨_, (tokenConversion_of_noBad hj k).1⟩
  | some j =>
    obtain ⟨hlt, -⟩ := List.findIdx?_eq_some_iff_getElem.1 hj
    exact .inr ⟨_, _, tokenConversion_of_firstBad hj (List.getElem?_eq_getElem hlt) k⟩

/-! ### The loops -/

/-- The W2B of a token that is an entry. -/
theorem request_token_of_some {s : State} {tok : Text} {b : Byte} (h : tokenByte s.rom tok = some b) :
    ∃ w, packToken tok = some w ∧ request (.w2b w) s = some (⟨.ok, zext32 b⟩, s.afterHit b) := by
  obtain ⟨w, hw, hrev⟩ := Option.bind_eq_some_iff.1 h
  exact ⟨w, hw, request_w2b_hit hrev⟩

/-- A token that is no entry is reported without a command, or its W2B misses. -/
theorem request_token_of_none {s : State} {tok : Text} (h : tokenByte s.rom tok = none) :
    packToken tok = none ∨
      ∃ w, packToken tok = some w ∧ request (.w2b w) s = some (⟨.invalidWord, s.pos⟩, s.afterMiss w) := by
  cases hw : packToken tok with
  | none => exact .inl rfl
  | some w =>
    rw [tokenByte, hw, Option.bind_some] at h
    exact .inr ⟨w, rfl, request_w2b_miss h⟩

section
variable {s t : State} {tok : Text} {toks : List Text} {k : Nat} {b : Byte} {res : Except HostError (List Byte)}

theorem convertTokens_cons_of_some (hb : tokenByte s.rom tok = some b)
    (h : convertTokens toks (k + 1) (s.afterHit b) = some (res, t)) :
    convertTokens (tok :: toks) k s = some (res.map (b :: ·), t) := by
  obtain ⟨w, hw, hreq⟩ := request_token_of_some hb
  simp [convertTokens, hw, hreq, h]

theorem convertAndFeed_cons_of_some (hb : tokenByte s.rom tok = some b)
    (h : convertAndFeed toks (k + 1) ((s.afterHit b).afterCrcbyte b) = some (res, t)) :
    convertAndFeed (tok :: toks) k s = some (res.map (b :: ·), t) := by
  obtain ⟨w, hw, hreq⟩ := request_token_of_some hb
  simp [convertAndFeed, hw, hreq, -requestOk_crcbyte, requestOk_crcbyte_eq, h]

/-- At a token that is no entry the two loops do the same, and leave ACC. -/
theorem convert_cons_of_none (hpos : s.pos = BitVec.ofNat 32 k) (h : tokenByte s.rom tok = none) :
    ∃ t, convertTokens (tok :: toks) k s = some (.error (.invalidWord tok (missPosition tok k)), t) ∧
      convertAndFeed (tok :: toks) k s = some (.error (.invalidWord tok (missPosition tok k)), t) ∧
      t.acc = s.acc := by
  obtain hw | ⟨w, hw, hreq⟩ := request_token_of_none h
  · exact ⟨s, by simp [convertTokens, hw, missPosition], by simp [convertAndFeed, hw, missPosition], rfl⟩
  · have hdata : s.pos.toNat = missPosition tok k := by simp [hpos, missPosition, hw]
    exact ⟨s.afterMiss w, by simp [convertTokens, hw, hreq, hdata], by simp [convertAndFeed, hw, hreq, hdata], rfl⟩

end

/-- The position of the token after a hit. -/
theorem State.afterHit_pos {s : State} {k : Nat} (hpos : s.pos = BitVec.ofNat 32 k) (b : Byte) :
    (s.afterHit b).pos = BitVec.ofNat 32 (k + 1) := by
  rw [BitVec.ofNat_add, ← hpos]
  rfl

/-- R179 step 4: the loop yields the conversion of the tokens, and no W2B writes ACC. -/
theorem convertTokens_eq (toks : List Text) {k : Nat} {s : State} (hpos : s.pos = BitVec.ofNat 32 k) :
    ∃ t, convertTokens toks k s = some (tokenConversion s.rom k toks, t) ∧ t.acc = s.acc := by
  induction toks generalizing k s with
  | nil => exact ⟨s, rfl, rfl⟩
  | cons tok toks ih =>
    cases hb : tokenByte s.rom tok with
    | none =>
      obtain ⟨t, ht, -, hacc⟩ := convert_cons_of_none (toks := toks) hpos hb
      rw [tokenConversion_cons_of_none hb]
      exact ⟨t, ht, hacc⟩
    | some b =>
      obtain ⟨t, ht, hacc⟩ := ih (State.afterHit_pos hpos b)
      rw [tokenConversion_cons_of_some hb]
      exact ⟨t, convertTokens_cons_of_some hb ht, hacc⟩

/-- R180: the interleaved loop yields the same, and leaves the bytes it converted folded into ACC. -/
theorem convertAndFeed_eq (toks : List Text) {k : Nat} {s : State} (hpos : s.pos = BitVec.ofNat 32 k) :
    ∃ t, convertAndFeed toks k s = some (tokenConversion s.rom k toks, t) ∧
      ∀ bs, tokenConversion s.rom k toks = .ok bs → t.acc = bs.foldl crcByte s.acc := by
  induction toks generalizing k s with
  | nil =>
    refine ⟨s, rfl, fun bs hbs => ?_⟩
    cases hbs
    rfl
  | cons tok toks ih =>
    cases hb : tokenByte s.rom tok with
    | none =>
      obtain ⟨t, -, ht, -⟩ := convert_cons_of_none (toks := toks) hpos hb
      rw [tokenConversion_cons_of_none hb]
      exact ⟨t, ht, nofun⟩
    | some b =>
      obtain ⟨t, ht, hacc⟩ := ih (s := (s.afterHit b).afterCrcbyte b) (State.afterHit_pos hpos b)
      rw [tokenConversion_cons_of_some hb]
      refine ⟨t, convertAndFeed_cons_of_some hb ht, fun bs hbs => ?_⟩
      obtain ⟨cs, hcs, rfl⟩ := except_map_eq_ok_iff.1 hbs
      exact hacc cs hcs

end Sys2Proof.Machine
end

section
/-! SUPPORT. The result of `decode` (43_host_sequences.md R179, R184) as a function of the table and the text, which
both of the model's sequences compute. -/

namespace Sys2Proof.Machine

/-- R179 steps 5 and 6. -/
def checkBytes (verify : Bool) (bs : List Byte) : Except HostError (List Byte) :=
  if verify = true ∧ crc bs ≠ 0x00#8 then .error .crcMismatch else .ok bs.dropLast

/-- R179: the result of `decode`, step by step. -/
def decodeResult (t : WordTable) (hp : HostParams) (text : Text) (verify : Bool) : Except HostError (List Byte) :=
  if trim hp.ws text = [] then .error .emptyInput
  else if (splitTokens hp text).length < 2 then .error .tooShort
  else (tokenConversion t 0 (splitTokens hp text)).bind (checkBytes verify)

theorem decodeResult_of_tokens {hp : HostParams} {text : Text} (hsome : trim hp.ws text ≠ [])
    (hlong : 2 ≤ (splitTokens hp text).length) (t : WordTable) (verify : Bool) :
    decodeResult t hp text verify = (tokenConversion t 0 (splitTokens hp text)).bind (checkBytes verify) := by
  rw [decodeResult, if_neg hsome, if_neg (Nat.not_lt.2 hlong)]

/-- R182: `decode` fails on structure or words, whether it verifies or not, or has bytes to check. -/
theorem decodeResult_cases (t : WordTable) (hp : HostParams) (text : Text) :
    (∃ e, e ≠ .crcMismatch ∧ ∀ verify, decodeResult t hp text verify = .error e) ∨
      ∃ bs, ∀ verify, decodeResult t hp text verify = checkBytes verify bs := by
  unfold decodeResult
  split
  · exact .inl ⟨.emptyInput, nofun, fun _ => rfl⟩
  · split
    · exact .inl ⟨.tooShort, nofun, fun _ => rfl⟩
    · obtain ⟨bs, hconv⟩ | ⟨tok, p, hconv⟩ := tokenConversion_cases t 0 (splitTokens hp text)
      · exact .inr ⟨bs, fun _ => by rw [hconv]; rfl⟩
      · exact .inl ⟨.invalidWord tok p, nofun, fun _ => by rw [hconv]; rfl⟩

theorem checkBytes_false (bs : List Byte) : checkBytes false bs = .ok bs.dropLast := rfl

theorem decodeResult_false_ne_crcMismatch (t : WordTable) (hp : HostParams) (text : Text) :
    decodeResult t hp text false ≠ .error .crcMismatch := by
  obtain ⟨e, hne, he⟩ | ⟨bs, hbs⟩ := decodeResult_cases t hp text
  · rw [he]
    exact fun h => hne (Except.error.inj h)
  · rw [hbs, checkBytes_false]
    exact nofun

theorem decodeResult_false_of_crcMismatch {t : WordTable} {hp : HostParams} {text : Text}
    (h : decodeResult t hp text true = .error .crcMismatch) : ∃ bs, decodeResult t hp text false = .ok bs := by
  obtain ⟨e, hne, he⟩ | ⟨bs, hbs⟩ := decodeResult_cases t hp text
  · rw [he] at h
    exact absurd (Except.error.inj h) hne
  · exact ⟨bs.dropLast, hbs false⟩

/-- R179 step 5: the answer is whether the residue is nonzero. -/
theorem verifyBytes_eq (bs : List Byte) (s : State) :
    ∃ t, verifyBytes bs s = some (decide (crc bs ≠ 0x00#8), t) := by
  obtain ⟨u, hu, hacc⟩ : ∃ u, feedCrc bs s.afterCrcinit = some u ∧ u.acc = crc bs := ⟨_, feedCrc_eq bs _, rfl⟩
  obtain ⟨r, t, hreq, hr⟩ := request_crcchk u
  rw [hacc] at hr
  refine ⟨t, ?_⟩
  rw [verifyBytes, requestOk_crcinit_eq]
  simp only [hu, hreq, Option.map_some, beq_eq_decide, hr]

/-- R179: `decode` ends with its result; without verification it sends no command of the CRC unit (R182). -/
theorem hostDecode_eq (hp : HostParams) (text : Text) (verify : Bool) (s : State) :
    ∃ t, hostDecode hp text verify s = some (decodeResult s.rom hp text verify, t) ∧
      (verify = false → t.acc = s.acc) := by
  rw [hostDecode, decodeResult, requestOk_w2binit_eq]
  split
  · exact ⟨s, rfl, fun _ => rfl⟩
  · split
    · exact ⟨s, rfl, fun _ => rfl⟩
    · obtain ⟨t, ht, hacc⟩ : ∃ t, convertTokens (splitTokens hp text) 0 s.afterW2binit =
          some (tokenConversion s.rom 0 (splitTokens hp text), t) ∧ t.acc = s.acc := convertTokens_eq _ rfl
      simp only [ht]
      cases tokenConversion s.rom 0 (splitTokens hp text) with
      | error e => exact ⟨t, rfl, fun _ => hacc⟩
      | ok bs =>
        cases verify with
        | false => exact ⟨t, rfl, fun _ => hacc⟩
        | true =>
          obtain ⟨u, hu⟩ := verifyBytes_eq bs t
          exact ⟨u, by simp [hu, Except.bind, checkBytes], nofun⟩

/-- R180: the interleaved `decode` ends with the result of the verifying one. -/
theorem hostDecodeInterleaved_eq (hp : HostParams) (text : Text) (s : State) :
    ∃ t, hostDecodeInterleaved hp text s = some (decodeResult s.rom hp text true, t) := by
  rw [hostDecodeInterleaved, decodeResult, requestOk_w2binit_eq]
  split
  · exact ⟨s, rfl⟩
  · split
    · exact ⟨s, rfl⟩
    · obtain ⟨t, ht, hacc⟩ : ∃ t, convertAndFeed (splitTokens hp text) 0 s.afterW2binit.afterCrcinit =
          some (tokenConversion s.rom 0 (splitTokens hp text), t) ∧
          ∀ bs, tokenConversion s.rom 0 (splitTokens hp text) = .ok bs → t.acc = crc bs := convertAndFeed_eq _ rfl
      simp only [requestOk_crcinit_eq, ht]
      cases hconv : tokenConversion s.rom 0 (splitTokens hp text) with
      | error e => exact ⟨t, rfl⟩
      | ok bs =>
        obtain ⟨r, u, hreq, hr⟩ := request_crcchk t
        rw [hacc bs hconv] at hr
        exact ⟨u, by simp [hreq, hr, Except.bind, checkBytes]⟩

end Sys2Proof.Machine
end

section
/-! The statements of 43_host_sequences.md. -/

open Sys2Proof Sys2Proof.Machine

/-- Settles O47: the bytes' entries convert back, and words that are entries are the entries of some bytes. -/
theorem bytesAndWordsRoundTrip : Obligations.BytesAndWordsRoundTrip := by
  refine ⟨fun s bs => ?_, fun s ws hws => ?_⟩
  · obtain ⟨t, ht, hrom⟩ : ∃ t, bytesToWords bs s = some (bs.map (romRead s.rom), t) ∧ t.rom = s.rom :=
      ⟨_, bytesToWords_eq bs s, rfl⟩
    rw [← hrom] at ht ⊢
    exact ⟨t, _, ht, wordsToBytes_entries bs t⟩
  · obtain ⟨bs, rfl⟩ := exists_bytes_of_entries hws
    exact ⟨bs, _, _, wordsToBytes_entries bs s, bytesToWords_eq bs _⟩

/-- Settles O48: the entries before the word hit, from position 0 and a clear record, and the word's miss ends the
loop. -/
theorem wordsToBytesReportsFirstMiss : Obligations.WordsToBytesReportsFirstMiss := by
  intro s pre w post hpre hw hlen
  obtain ⟨bs, rfl⟩ := exists_bytes_of_entries hpre
  rw [List.length_map] at hlen ⊢
  have hpos : (s.afterW2binit.afterHits bs).pos = BitVec.ofNat 32 bs.length := BitVec.zero_add _
  have hposition : (BitVec.ofNat 32 bs.length).toNat = bs.length := by
    rw [BitVec.toNat_ofNat, Nat.mod_eq_of_lt hlen]
  have hrun := (wordsToBytes_eq _ s).trans (convertWords_firstMiss bs (s := s.afterW2binit) hw post)
  rw [hpos, hposition] at hrun
  refine ⟨_, hrun, rfl, rfl, hpos, ?_⟩
  rw [BitVec.ofNat_add, ← hpos]
  rfl

/-- Settles O49: four characters a word, and a delimiter before every word but the first. -/
theorem encodeYieldsMessage : Obligations.EncodeYieldsMessage := by
  intro s p
  obtain ⟨t, ht, hstate⟩ := hostEncode_eq p s
  refine ⟨t, _, ht, by rw [joinWords, List.map_map]; rfl, ?_, hstate⟩
  rw [joinWords_length (by simp)]
  simp

/-- Settles O50: both sequences yield the message and change ACC alone, to the checksum. -/
theorem interleavedEncodeAgrees : Obligations.InterleavedEncodeAgrees := by
  intro s p
  obtain ⟨t, ht, htstate⟩ := hostEncode_eq p s
  obtain ⟨u, hu, hustate⟩ := hostEncodeInterleaved_eq p s
  refine ⟨_, t, u, ht, hu, ?_⟩
  rw [htstate]
  exact hustate

/-- Settles O51: a message depends on the table alone, and decodes to its payload on every block with that table. -/
theorem decodeOfEncodedPayload : Obligations.DecodeOfEncodedPayload := by
  intro hp s s' p hne hrom
  obtain ⟨t, ht, -⟩ := hostEncode_eq p s
  refine ⟨_, t, ht, fun verify => ?_⟩
  rw [← hrom]
  exact hostDecode_message hp verify s' hne

/-- Settles O52: by the order in which `decodeResult` tests, and what the conversion yields. -/
theorem decodeResultInOrder : Obligations.DecodeResultInOrder := by
  intro hp s text verify hlen
  obtain ⟨t, ht, -⟩ := hostDecode_eq hp text verify s
  refine ⟨fun hempty => ?_, fun hsome hshort => ?_, fun hsome hlong k tok hk htok => ?_, fun hsome hlong hnone => ?_⟩
  · rw [hostDecode, if_pos hempty]
  · rw [hostDecode, if_neg hsome, if_pos hshort]
  · have hlt : k < 2 ^ 32 := (List.getElem?_eq_some_iff.1 htok).1.trans_le hlen
    rw [decodeResult_of_tokens hsome hlong, tokenConversion_of_firstBad hk htok, Nat.zero_add,
      missPosition_of_lt hlt] at ht
    exact ⟨t, ht⟩
  · obtain ⟨hconv, hbytes⟩ := tokenConversion_of_noBad hnone 0
    rw [decodeResult_of_tokens hsome hlong, hconv] at ht
    exact ⟨hbytes, t, ht⟩

/-- Settles O53: the two settings differ in the check of the bytes alone, and only that check sends CRC commands. -/
theorem tolerantDecode : Obligations.TolerantDecode := by
  refine ⟨fun hp s t text res h => ?_, fun hp s t text h => ?_⟩
  · obtain ⟨u, hu, hacc⟩ := hostDecode_eq hp text false s
    cases hu.symm.trans h
    exact ⟨decodeResult_false_ne_crcMismatch s.rom hp text, hacc rfl⟩
  · obtain ⟨u, hu, -⟩ := hostDecode_eq hp text true s
    obtain ⟨v, hv, -⟩ := hostDecode_eq hp text false s
    have hmismatch : decodeResult s.rom hp text true = .error .crcMismatch :=
      (Prod.mk.inj (Option.some.inj (hu.symm.trans h))).1
    obtain ⟨bytes, hbytes⟩ := decodeResult_false_of_crcMismatch hmismatch
    exact ⟨bytes, v, by rw [hv, hbytes]⟩

/-- Settles O54: both sequences compute `decodeResult`. -/
theorem interleavedDecodeAgrees : Obligations.InterleavedDecodeAgrees := by
  intro hp s text
  obtain ⟨t, ht, -⟩ := hostDecode_eq hp text true s
  obtain ⟨u, hu⟩ := hostDecodeInterleaved_eq hp text s
  exact ⟨_, t, u, ht, hu⟩

/-- Settles O55: the message of no bytes is one entry, whose text is one token. -/
theorem emptyPayloadDoesNotDecode : Obligations.EmptyPayloadDoesNotDecode := by
  intro hp s s' verify
  obtain ⟨t, ht, -⟩ := hostEncode_eq [] s
  have hjoin : joinWords [romRead s.rom 0x00#8] = wordText (romRead s.rom 0x00#8) := List.intercalate_singleton
  have hentries : ∀ w ∈ [romRead s.rom 0x00#8], w ∈ s.rom.entries := by simp [romRead_mem]
  refine ⟨t, hjoin ▸ ht, ?_⟩
  rw [← hjoin, hostDecode, trim_joinWords hentries, splitTokens_joinWords hentries hp (by simp),
    if_neg (joinWords_ne_nil (by simp)), if_pos (by simp)]
end

section
/-! SUPPORT. Illegal words (60_exceptions.md R204): what the decoder, and then the block, makes of a word outside R86's
table. -/

namespace Sys2Proof.Machine

/-- The effect R204 lists is what raising ILLEGAL_CMD does. -/
theorem State.raise_illegalCmd_eq_illegalEffect (op : Byte) (s : State) :
    s.raise (.illegalCmd op) = illegalEffect op s := rfl

/-- R86, R204: every word outside R86's table has R204's effect, in every state. -/
theorem executeWord_of_not_legalCommand {c : Word40} (h : ¬ LegalCommand c) (s : State) :
    executeWord c s = .next (illegalEffect (opField c) s) := by
  cases hc : decode c with
  | ok i => exact absurd ((decode_ok_iff_legalCommand c).1 ⟨i, hc⟩) h
  | error e => rw [executeWord_of_error hc, State.raise_illegalCmd_eq_illegalEffect]

/-- R204: the response's data is bits 39:32 of the word. -/
theorem setWidth_opField (c : Word40) : (opField c).setWidth 32 = BitVec.ofNat 32 (c.toNat / 2 ^ 32) := by
  rw [← opField_toNat, BitVec.ofNat_toNat]

end Sys2Proof.Machine
end

section
/-! The statements of 60_exceptions.md. -/

open Sys2Proof Sys2Proof.Machine

/-- Settles O17: the decoder rejects the word, so the block raises ILLEGAL_CMD with the word's opcode byte. -/
theorem illegalWordTakesIllegalCmd : Obligations.IllegalWordTakesIllegalCmd := by
  intro s c ms hmoves hillegal
  rw [step_of_moves hmoves, perform, executeWord_of_not_legalCommand hillegal, illegalEffect,
    setWidth_opField]

/-- Settles O21: the frame of every command word holds one response, and the queue behind the word. -/
theorem stepAlwaysAnswers : Obligations.StepAlwaysAnswers := by
  intro s c ms hmoves
  obtain ⟨t, ht, hframe⟩ := executeWord_frame c { s with moves := ms }
  obtain ⟨r, hr⟩ := hframe.answered
  exact ⟨t, r, by rw [step_of_moves hmoves, perform, ht], hr, hframe.moves⟩

/-- Settles O19. -/
theorem stepWaitsWithoutMove : Obligations.StepWaitsWithoutMove := fun _ => step_of_moves_nil
end

section
/-! SUPPORT. Runs across a reset or a missing initialisation (70_reset_and_hazards.md R230, R240): what stood on the
channels before a run does not reach it, a reset leaves the reset state on the channels as they are, and a run of
CRCBYTE commands continues from the ACC it finds. -/

namespace Sys2Proof.Machine

/-- A run of commands answers behind what stands on the channels, and is otherwise the run on empty ones. -/
theorem runCommands_onChannels (ms : List HostMove) (rs : List Response) (cs : List Word40) (s : State) :
    NextWith (runCommands cs s) fun t => runCommands cs (s.onChannels ms rs) = .next (t.onChannels ms rs) := by
  induction cs generalizing s with
  | nil => exact ⟨s, rfl, rfl⟩
  | cons c cs ih =>
    obtain ⟨u, hu, hu'⟩ := executeWord_onChannels ms rs c s
    obtain ⟨t, ht, ht'⟩ := ih u
    exact ⟨t, by rw [runCommands_cons hu, ht], by rw [runCommands_cons hu', ht']⟩

/-- R230, R231: of the state before a reset the ROM alone stays, and the channels (assumption 4). -/
theorem State.resetRegisters_eq_onChannels (s : State) :
    s.resetRegisters = ({ State.reset with rom := s.rom } : State).onChannels s.moves s.responses := by
  simp [State.resetRegisters, State.onChannels, State.reset]

/-- R121: without a CRCINIT among them, CRCBYTE commands fold their operands into the ACC they find. -/
theorem runCommands_crcbytes (bs : List Byte) (s : State) :
    NextWith (runCommands (bs.map fun b => encode (.crcbyte b)) s) (·.acc = bs.foldl crcByte s.acc) := by
  have hnoinit : ∀ c ∈ bs.map fun b => encode (.crcbyte b), decode? c ≠ some .crcinit :=
    List.forall_mem_map.2 fun b _ => by rw [decode?_encode rfl]; simp
  have hrun := runCommands_acc hnoinit s
  rwa [crcOperands_encode_crcbyte] at hrun

/-- R113: `crc` is the fold of `crc_byte` from a zero accumulator. -/
theorem crc_eq_foldl (bs : List Byte) : crc bs = bs.foldl crcByte 0#8 := rfl

end Sys2Proof.Machine
end

section
/-! The statements of 70_reset_and_hazards.md. -/

open Sys2Proof Sys2Proof.Machine

/-- Settles O28: the reset leaves the reset state with the same ROM, on channels that do not reach the commands. -/
theorem resetForgetsHistory : Obligations.ResetForgetsHistory := by
  intro ms cs s
  obtain ⟨w, hw, hrom, hmoves⟩ := performAll_next ms s
  obtain ⟨v, hv, hu⟩ := runCommands_onChannels s.moves w.responses cs { State.reset with rom := s.rom }
  rw [← hrom, ← hmoves, ← State.resetRegisters_eq_onChannels] at hu
  exact ⟨w.resetRegisters, _, v, performAll_append hw [.reset], hu, hv, by rw [hmoves]; rfl⟩

/-- Settles O42: the second message starts from the checksum of the first, and the fold over it keeps two different
starts apart. -/
theorem missingCrcinitContinues : Obligations.MissingCrcinitContinues := by
  refine ⟨fun s p q => ?_, fun p q => ?_⟩
  · obtain ⟨t, ht, hacc⟩ := runCommands_crcbytes (p ++ q) (State.respond .ok 0#32 { s with acc := 0#8 })
    exact ⟨t, by rw [runCommands_crcinit_cons, ht], by rw [hacc, List.foldl_append]; rfl⟩
  · rw [crc_eq_foldl q]
    exact (foldl_crcByte_injective q).eq_iff

/-- Settles O45: what W2B commands make of a record that holds a miss is that record. -/
theorem missingW2binitKeepsRecord : Obligations.MissingW2binitKeepsRecord := by
  intro s ws hiw
  obtain ⟨t, ht, hpos, hanswers, hrecord⟩ := runCommands_w2b ws s
  obtain ⟨hiw', hword, herr⟩ := (recordAfter_of_iw hiw).1 hrecord
  exact ⟨t, ht, hiw', hword, herr, hpos, hanswers⟩

/-- Settles O18: the step performs the reset with the moves behind it on the channel. -/
theorem stepTakesReset : Obligations.StepTakesReset := fun _ _ => step_of_moves

/-- Settles O46: CRCINIT clears ACC and W2BINIT the other registers but IC, each with one response OK. -/
theorem initsProduceResetRegisters : Obligations.InitsProduceResetRegisters := by
  intro s
  refine ⟨s.afterCrcinit.afterW2binit, ?_, ?_⟩
  · rw [runCommands_crcinit_cons, runCommands_singleton, executeWord_encode rfl]
    rfl
  · simp [State.afterW2binit, State.afterCrcinit, State.respond, State.clearMiss, State.reset, Config.crcInit]
end
